-- ==== Sys2Proof/Word.lean ====
section
/-! DEFINITION. The word of the RQU: every register, coefficient cell and command word is 64 bits wide (R11). -/

namespace Sys2Proof

/-- A 64-bit pattern: a register of R35, a coefficient cell of R31, a command word of R100. -/
abbrev Word := BitVec 64

/-- One byte lane of a word (R73). -/
abbrev Byte := BitVec 8

end Sys2Proof
end

