-- ==== Sys2Proof/Syntax.lean ====
section
/-! DEFINITION. The seven commands of RQCMD version 1 (R102, opcode_table.json). -/

namespace Sys2Proof

/-- The modulus-select field ms (R104): 0 selects Q, 1 selects T. -/
inductive ModSel where
  | q
  | t
  deriving DecidableEq, Repr

/-- The field dr of UNIF (R105): 0 selects [UMIN, UMAX], 1 selects the default range [0, M]. -/
inductive RangeSel where
  | bounds
  | whole
  deriving DecidableEq, Repr

/-- A command (R102). `rd`, `rs1` and `rs2` are polynomial register indices (R103). -/
inductive Instr where
  /-- CENTER (R134): centered representatives of a register. -/
  | center (rd rs1 : Nat) (ms : ModSel)
  /-- ADD (R154): coefficientwise sum. -/
  | add (rd rs1 rs2 : Nat) (ms : ModSel)
  /-- MUL (R155): product in Z_M[x]/(x^N + 1). -/
  | mul (rd rs1 rs2 : Nat) (ms : ModSel)
  /-- SMUL (R156): product with the scalar SCALAR. -/
  | smul (rd rs1 : Nat) (ms : ModSel)
  /-- POW (R157): power with exponent EXP. -/
  | pow (rd rs1 : Nat) (ms : ModSel)
  /-- GAUSS (R191): discrete Gaussian noise. -/
  | gauss (rd : Nat) (ms : ModSel)
  /-- UNIF (R194): discrete uniform values. -/
  | unif (rd : Nat) (ms : ModSel) (dr : RangeSel)
  deriving DecidableEq, Repr

/-- The destination register, field rd. -/
def Instr.dest : Instr → Nat
  | .center rd _ _ => rd
  | .add rd _ _ _ => rd
  | .mul rd _ _ _ => rd
  | .smul rd _ _ => rd
  | .pow rd _ _ => rd
  | .gauss rd _ => rd
  | .unif rd _ _ => rd

/-- The source registers a command reads, in field order (the "fields used" column of R102). -/
def Instr.sources : Instr → List Nat
  | .center _ rs1 _ => [rs1]
  | .add _ rs1 rs2 _ => [rs1, rs2]
  | .mul _ rs1 rs2 _ => [rs1, rs2]
  | .smul _ rs1 _ => [rs1]
  | .pow _ rs1 _ => [rs1]
  | .gauss _ _ => []
  | .unif _ _ _ => []

/-- The modulus-select field: "Every command uses ms" (R104). -/
def Instr.modSel : Instr → ModSel
  | .center _ _ ms => ms
  | .add _ _ _ ms => ms
  | .mul _ _ _ ms => ms
  | .smul _ _ ms => ms
  | .pow _ _ ms => ms
  | .gauss _ ms => ms
  | .unif _ ms _ => ms

end Sys2Proof
end

