-- ==== Sys2Proof/WellFormed.lean ====
section
/-! DEFINITION. Which commands have a command word: every register index fits its 4-bit field (R101, R103). -/

namespace Sys2Proof

/-- A register index fits a 4-bit field (R103: "4-bit unsigned register indices ... in 0 to 15"). -/
def regFits (r : Nat) : Bool := decide (r < 16)

/-- A command that a command word can carry. An index ≥ R is still well-formed: it is a command that fails with BAD_REG
when it completes (R103). -/
def Instr.wellFormed : Instr → Bool
  | .center rd rs1 _ => regFits rd && regFits rs1
  | .add rd rs1 rs2 _ => regFits rd && regFits rs1 && regFits rs2
  | .mul rd rs1 rs2 _ => regFits rd && regFits rs1 && regFits rs2
  | .smul rd rs1 _ => regFits rd && regFits rs1
  | .pow rd rs1 _ => regFits rd && regFits rs1
  | .gauss rd _ => regFits rd
  | .unif rd _ _ => regFits rd

end Sys2Proof
end

