-- ==== Sys2Proof/Decode.lean ====
section
/-! DEFINITION. The decoder of a command word (R109), total on all 64-bit words, and the encoder (R101). -/

namespace Sys2Proof

/-- The field `v[hi:lo]` as an unsigned number (R17). -/
def bits (v : Word) (hi lo : Nat) : Nat := v.toNat / 2 ^ lo % 2 ^ (hi + 1 - lo)

/-- Bit `k` of a word (R17). -/
def bit (v : Word) (k : Nat) : Bool := decide (bits v k k = 1)

/-- Why a word is illegal. The hardware reports every reason with the one code ILLEGAL_CMD (R221). -/
inductive Illegal where
  /-- One of the bits 63:18 is set (R106). -/
  | reservedBits
  /-- The opcode is 0x0 or one of 0x8 to 0xF (R107). -/
  | reservedOpcode
  /-- A field the opcode does not use is not 0 (R106). -/
  | unusedField
  deriving DecidableEq, Repr

/-- What decoding answers: a command, or ILLEGAL with its reason. -/
inductive Decoded where
  | cmd (i : Instr)
  | illegal (why : Illegal)
  deriving DecidableEq, Repr

/-- The command a decoded word carries, if it carries one. -/
def toInstr? : Decoded → Option Instr
  | .cmd i => some i
  | .illegal _ => none

/-- The selection a ms bit makes (R104). -/
def modSelOfBit (b : Nat) : ModSel := if b = 0 then .q else .t

/-- The range a dr bit selects (R105). -/
def rangeSelOfBit (b : Nat) : RangeSel := if b = 0 then .bounds else .whole

/-- A command if the fields its opcode does not use are 0, else ILLEGAL (R106). -/
def ifUnusedZero (zero : Bool) (i : Instr) : Decoded := if zero then .cmd i else .illegal .unusedField

/-- The decoder of R109. -/
def decode (w : Word) : Decoded :=
  if bits w 63 18 = 0 then
    let rd := bits w 7 4
    let rs1 := bits w 11 8
    let rs2 := bits w 15 12
    let ms := modSelOfBit (bits w 16 16)
    let dr := bits w 17 17
    match bits w 3 0 with
    | 1 => ifUnusedZero (rs2 == 0 && dr == 0) (.center rd rs1 ms)
    | 2 => ifUnusedZero (dr == 0) (.add rd rs1 rs2 ms)
    | 3 => ifUnusedZero (dr == 0) (.mul rd rs1 rs2 ms)
    | 4 => ifUnusedZero (rs2 == 0 && dr == 0) (.smul rd rs1 ms)
    | 5 => ifUnusedZero (rs2 == 0 && dr == 0) (.pow rd rs1 ms)
    | 6 => ifUnusedZero (rs1 == 0 && rs2 == 0 && dr == 0) (.gauss rd ms)
    | 7 => ifUnusedZero (rs1 == 0 && rs2 == 0) (.unif rd ms (rangeSelOfBit dr))
    | _ => .illegal .reservedOpcode
  else .illegal .reservedBits

/-- The command word whose low `nbits` bits are `w` and whose other bits are 0. -/
def wordOfTable (nbits w : Nat) : Word := BitVec.ofNat 64 (w % 2 ^ nbits)

/-- The command the decoder reads from a word given as the opcode table gives it. A command is one 64-bit value, not a
sequence of stored words (R100), so no byte order comes in. -/
def decodeTableWord (nbits w : Nat) : Option Instr := toInstr? (decode (wordOfTable nbits w))

/-- The ms bit (R101). -/
def modSelBit : ModSel → Nat
  | .q => 0
  | .t => 1

/-- The dr bit (R101). -/
def rangeSelBit : RangeSel → Nat
  | .bounds => 0
  | .whole => 1

/-- A word from its fields at the positions of R101; bits 63:18 are 0. -/
def packFields (op rd rs1 rs2 ms dr : Nat) : Word :=
  BitVec.ofNat 64 (op + 16 * rd + 256 * rs1 + 4096 * rs2 + 65536 * ms + 131072 * dr)

/-- The command word of a command (R101, R102): "Every unused field assembles to 0" (R110). -/
def encode : Instr → Word
  | .center rd rs1 ms => packFields 1 rd rs1 0 (modSelBit ms) 0
  | .add rd rs1 rs2 ms => packFields 2 rd rs1 rs2 (modSelBit ms) 0
  | .mul rd rs1 rs2 ms => packFields 3 rd rs1 rs2 (modSelBit ms) 0
  | .smul rd rs1 ms => packFields 4 rd rs1 0 (modSelBit ms) 0
  | .pow rd rs1 ms => packFields 5 rd rs1 0 (modSelBit ms) 0
  | .gauss rd ms => packFields 6 rd 0 0 (modSelBit ms) 0
  | .unif rd ms dr => packFields 7 rd 0 0 (modSelBit ms) (rangeSelBit dr)

end Sys2Proof
end

