-- ==== Sys2Proof/Config.lean ====
section
/-! DEFINITION. What an implementation of the RQU fixes (00_scope.md section 3), and the values the spec leaves free. -/

namespace Sys2Proof

/-- What ENTROPY can be (R15). -/
inductive EntropySource where
  /-- A true random generator. -/
  | trueRandom
  /-- An external entropy port. -/
  | externalPort
  /-- A pseudo-random generator seeded through SEED. -/
  | pseudoRandom
  deriving DecidableEq, Repr

/-- The parameters of one implementation. NMAX is a power of two (R8), so its logarithm, which is also what PARAM shows
(R39), is the parameter; `nreg` is R of R9; `entropySource` is ENTROPY of R15, which the spec leaves open. They stand in
the state (assumption 1), so that every statement about all states is a statement about all implementations. -/
structure Params where
  log2Nmax : Nat
  nreg : Nat
  entropySource : EntropySource
  deriving DecidableEq, Repr

/-- The reference configuration: NMAX = 1024 (R8), R = 8 (R9). R15 gives ENTROPY no reference value; that it is a
pseudo-random generator here is a DESIGN CHOICE (assumption 1). -/
def Params.reference : Params := ⟨10, 8, .pseudoRandom⟩

/-- NMAX: the largest ring degree and the number of cells in a polynomial register (R8). -/
def Params.nmax (p : Params) : Nat := 2 ^ p.log2Nmax

/-- The sizes the spec admits: 1 ≤ NMAX ≤ 2^16 (R8) and 1 ≤ R ≤ 16 (R9). -/
abbrev Params.Wf (p : Params) : Prop := p.log2Nmax ≤ 16 ∧ 1 ≤ p.nreg ∧ p.nreg ≤ 16

/-- FREE VALUE (assumption 2). BASE is left to the platform, "aligned to a multiple of the window size rounded up to a
power of two" (R10): BASE is this many such multiples. -/
opaque Config.baseUnits : Nat

/-- FREE VALUE (assumption 3). What ENTROPY, PRNG and GAUSS_METHOD (R15) supply for one draw: an integer nothing
constrains, before the samplers bring it into the draw's stated range. The argument is the number of draws taken before
this one, which never repeats. SEED is no argument: "The model's draws do not depend on SEED" (R51). -/
opaque Config.freeDraw : Nat → Int

end Sys2Proof
end

