-- ==== Sys2Proof/Machine/State.lean ====
section
/-! DEFINITION. The state of the RQU (10_state.md), what the outside world offers it, its faults and refusals, and reset. -/

namespace Sys2Proof.Machine

/-- What STATUS.ERR can hold (R221). The codes 7 to 15 are never produced, so they are no constructors. -/
inductive ErrCode where
  | noError
  | illegalCmd
  | badReg
  | badDegree
  | badModulus
  | badRange
  | busy
  deriving DecidableEq, Repr

/-- The nine configuration registers (R41 to R49, R56): 64 bits each, all of which store (R54). -/
structure ConfigRegs where
  /-- N, the ring degree, unsigned (R41). -/
  n : Word
  /-- Q, the ciphertext modulus, signed (R42). -/
  q : Word
  /-- T, the plaintext modulus, signed (R43). -/
  t : Word
  /-- SCALAR, signed (R44). -/
  scalar : Word
  /-- EXP, unsigned (R45). -/
  exp : Word
  /-- STD, unsigned fixed point with 32 fraction bits (R46). -/
  std : Word
  /-- GBOUND, the Gaussian tail bound, unsigned (R47). -/
  gbound : Word
  /-- UMIN, signed (R48). -/
  umin : Word
  /-- UMAX, signed (R49). -/
  umax : Word
  deriving DecidableEq, Repr

/-- The tuple an in-flight command holds (R50): its word and copies of the nine configuration registers. -/
structure InFlight where
  cmd : Word
  cfg : ConfigRegs
  deriving DecidableEq, Repr

/-- The model's stand-in for the hidden entropy state (R52; assumption 3). -/
structure Entropy where
  /-- The value a SEED write last reseeded a pseudo-random generator with since reset (R51). No register reads it (R52)
  and no draw depends on it (R51, R197). -/
  seed : Option Word
  /-- How many draws have been taken: which free value the next draw is. -/
  drawn : Nat
  deriving DecidableEq, Repr

/-- The widths a bus access can have (R72); only `w64` is legal. -/
inductive AccessWidth where
  | w8
  | w16
  | w32
  | w64
  deriving DecidableEq, Repr

/-- Whether a bus access reads, or writes which value. -/
inductive AccessKind where
  | read
  | write (data : Word)
  deriving DecidableEq, Repr

/-- One access of a host at the bus target port (R13, R23): its byte offset from BASE, its width, its byte enables. -/
structure Access where
  kind : AccessKind
  offset : Nat
  width : AccessWidth
  lanes : Byte
  deriving DecidableEq, Repr

/-- What comes next in the one total order of host accesses and engine steps (R81), or from the input `rst` (R260). -/
inductive Input where
  /-- A host access arrives at the target port. -/
  | access (a : Access)
  /-- The engine moves before the rest of the list: LATENCY (R14) is over for the command in flight. -/
  | engine
  /-- Hardware reset (R260 (a)). -/
  | rst
  deriving DecidableEq, Repr

/-- The polynomial register file as the pairs (window offset of a cell, what it holds), offsets strictly rising. A cell
that is not listed holds `undef` (R31). Why a cell and not a byte is the unit: assumption 5. -/
abbrev PolyFile := List (Nat × Word)

/-- The state of the RQU. ID is a constant and SEED stores nothing (R35), so neither is a field; STATUS.BUSY is
`inflight ≠ none` (R50) and irq is derived (R53). -/
structure State where
  /-- The parameters of this implementation: NMAX and R, which PARAM shows (R39), and ENTROPY (R15); nothing writes them. -/
  params : Params
  /-- CTRL.IE (R36). -/
  ie : Bool
  /-- STATUS.DONE (R37). -/
  done : Bool
  /-- STATUS.ERR_VALID (R37). -/
  errValid : Bool
  /-- STATUS.ERR (R37, R221). -/
  err : ErrCode
  /-- The CMD read-back value (R40). -/
  cmd : Word
  /-- The configuration registers (R41 to R49). -/
  cfg : ConfigRegs
  /-- The in-flight record L (R50). -/
  inflight : Option InFlight
  /-- A SEED write held until the command in flight completes (R51). -/
  heldSeed : Option Word
  /-- The polynomial register file (R31). -/
  poly : PolyFile
  /-- The stand-in for the entropy state (R52; the model's own, assumption 3). -/
  entropy : Entropy
  /-- What the host, the engine's latency and `rst` do next, first to come first (the model's own, assumption 4). -/
  inputs : List Input
  /-- The data the target port returned, where the last access was a read (the model's own, assumption 4). -/
  readData : Option Word
  deriving DecidableEq, Repr

/-- Why the model stops where the spec says that the model faults (R238). Each errs toward unprovable: safe. -/
inductive Fault where
  /-- Raised by a host access of an illegal width, alignment, byte enables or offset (R72, R74). Safe. -/
  | busError
  /-- Raised by a host read of an `undef` cell (R77). Safe. -/
  | readUndefHost
  /-- Raised by a command that passes its checks and reads an `undef` operand cell (R115). Safe. -/
  | readUndefEngine
  /-- Raised by a host access to the polynomial window while BUSY = 1 (R79). Safe. -/
  | polyAccessWhileBusy
  deriving DecidableEq, Repr

/-- Why a meaning is not applied at all. -/
inductive Refusal where
  /-- For an instruction without a meaning in this model; no arm of `exec` answers it. Safe. -/
  | notModelled (mnemonic : String)
  /-- Raised by `exec` in a state with no command in flight, where the completion step "is enabled exactly when
  L ≠ none" (R115); `step` never calls it there. Safe. -/
  | noCommandInFlight
  deriving DecidableEq, Repr

/-- All nine configuration registers 0, as reset leaves them (R35, R261). -/
def ConfigRegs.zero : ConfigRegs := ⟨0, 0, 0, 0, 0, 0, 0, 0, 0⟩

/-- The state after reset of an implementation of given parameters (R261): every register 0, no command in flight, no held
SEED write, every cell `undef`. The last three fields are the model's own (assumptions 3 and 4). -/
def State.resetOf (p : Params) : State where
  params := p
  ie := false
  done := false
  errValid := false
  err := .noError
  cmd := 0
  cfg := .zero
  inflight := none
  heldSeed := none
  poly := []
  entropy := ⟨none, 0⟩
  inputs := []
  readData := none

/-- The reference configuration (R8, R9) right after reset. -/
def State.reset : State := State.resetOf Params.reference

end Sys2Proof.Machine
end

