-- ==== Sys2Proof/Machine/Flags.lean ====
section
/-! DEFINITION. The flags: STATUS and CTRL as software reads them (R36, R37), the recording and clearing of an error
(R225, R226) and the interrupt line (R53). No arithmetic flag exists (R57). -/

namespace Sys2Proof.Machine

/-- STATUS.BUSY: "STATUS.BUSY = 1 exactly when L ≠ none" (R50). -/
def busy (s : State) : Bool := s.inflight.isSome

/-- The code of an error in STATUS.ERR (R221). -/
def errNumber : ErrCode → Nat
  | .noError => 0
  | .illegalCmd => 1
  | .badReg => 2
  | .badDegree => 3
  | .badModulus => 4
  | .badRange => 5
  | .busy => 6

/-- STATUS as it is read (R37): BUSY in bit 0, DONE in bit 1, ERR_VALID in bit 2, ERR in bits 11:8, 0 elsewhere (R54). -/
def statusWord (s : State) : Word :=
  BitVec.ofNat 64 ((busy s).toNat + 2 * s.done.toNat + 4 * s.errValid.toNat + 256 * errNumber s.err)

/-- CTRL as it is read (R36): IE in bit 0; SRST and the reserved bits read 0. -/
def ctrlWord (s : State) : Word := BitVec.ofNat 64 s.ie.toNat

/-- The interrupt line (R53, R227). -/
def irq (s : State) : Bool := s.ie && (s.done || s.errValid)

/-- `record_error(code)` (R225): the first error is kept until the host clears it. -/
def recordError (e : ErrCode) (s : State) : State :=
  if s.errValid then s else { s with errValid := true, err := e }

/-- The part of a STATUS write that bit 1 decides: a 1 clears DONE (R37). -/
def clearDone (v : Word) (s : State) : State :=
  if bit v 1 then { s with done := false } else s

/-- The part of a STATUS write that bit 2 decides: a 1 clears ERR_VALID and sets ERR to 0 (R37), "the only return from
an error" (R226). -/
def clearError (v : Word) (s : State) : State :=
  if bit v 2 then { s with errValid := false, err := .noError } else s

/-- A host write to STATUS acts bit by bit and ignores every other bit (R37). -/
def writeStatus (v : Word) (s : State) : State := clearError v (clearDone v s)

end Sys2Proof.Machine
end

