-- ==== Sys2Proof/Machine/Operands.lean ====
section
/-! DEFINITION. Every operand of a command: how a 64-bit pattern is read as an integer and written back (R17), and each
operand that a latched configuration register supplies (R104, R105, R108). -/

namespace Sys2Proof.Machine

/-- `sext_64(v)`: the pattern as a two's-complement integer (R17). -/
def sext64 (v : Word) : Int := v.toInt

/-- `zext_64(v)`: the pattern as an unsigned integer (R17). -/
def zext64 (v : Word) : Nat := v.toNat

/-- `enc64(v)`: the two's-complement pattern of an integer -2^63 ≤ v < 2^63 (R17). -/
def enc64 (v : Int) : Word := BitVec.ofInt 64 v

/-- The ring degree L.N (R108). -/
def ringDegree (l : InFlight) : Nat := zext64 l.cfg.n

/-- The selected modulus M (R104). -/
def modulus (l : InFlight) : ModSel → Int
  | .q => sext64 l.cfg.q
  | .t => sext64 l.cfg.t

/-- The scalar k of SMUL (R108, R156). -/
def scalarOperand (l : InFlight) : Int := sext64 l.cfg.scalar

/-- The exponent e of POW (R108, R157). -/
def exponentOperand (l : InFlight) : Nat := zext64 l.cfg.exp

/-- The standard deviation of GAUSS in units of 2^-32 (R46, R108): sigma is this number divided by 2^32. -/
def sigmaUnits (l : InFlight) : Nat := zext64 l.cfg.std

/-- The tail bound B of GAUSS (R47, R108). -/
def tailBound (l : InFlight) : Nat := zext64 l.cfg.gbound

/-- The range [lo, hi] of UNIF (R105, R194): [0, M], or [UMIN, UMAX]. -/
def uniformRange (l : InFlight) (ms : ModSel) : RangeSel → Int × Int
  | .whole => (0, modulus l ms)
  | .bounds => (sext64 l.cfg.umin, sext64 l.cfg.umax)

end Sys2Proof.Machine
end

