-- ==== Sys2Proof/Machine/Ops.lean ====
section
/-! DEFINITION. The named operations on the state: the polynomial register file, reset, accepting a command (R114), the
checks (R222), the failure of a command (R220, R223; this block's only exception), its completion (R115), and whose turn
comes next (R81). -/

namespace Sys2Proof.Machine

/-! ## The polynomial register file -/

/-- What the file holds at a window offset; `none` is `undef` (R31). -/
def polyRead : PolyFile → Nat → Option Word
  | [], _ => none
  | (b, w) :: m, a => if a = b then some w else polyRead m a

/-- The file with a cell written, in canonical form. No value is `undef`, so a write never removes an entry. -/
def polyWrite : PolyFile → Nat → Word → PolyFile
  | [], a, v => [(a, v)]
  | (b, w) :: m, a, v =>
    if a < b then (a, v) :: (b, w) :: m
    else if a = b then (a, v) :: m
    else (b, w) :: polyWrite m a v

/-- The canonical form: offsets strictly rising. Equal files are then equal data. -/
abbrev PolyFile.Wf (m : PolyFile) : Prop := m.Pairwise fun x y => x.1 < y.1

/-- `cell_offset(r, i)`, the window offset of cell i of register r (R71). -/
def cellOffset (p : Params) (r i : Nat) : Nat := 0x1000 + 8 * (r * p.nmax + i)

/-- WINDOW, the size of the register window in bytes (R70). -/
def windowSize (p : Params) : Nat := 0x1000 + 8 * p.nreg * p.nmax

/-- P[r][i] (R21): the integer a cell holds, or `none` for `undef`. -/
def cell (s : State) (r i : Nat) : Option Int := (polyRead s.poly (cellOffset s.params r i)).map sext64

/-- The integers in `k` cells of register `r` from cell `i` on, or `none` if one of them is `undef`. -/
def readCells (p : Params) (m : PolyFile) (r : Nat) : Nat → Nat → Option (List Int)
  | _, 0 => some []
  | i, k + 1 =>
    match polyRead m (cellOffset p r i), readCells p m r (i + 1) k with
    | some v, some vs => some (sext64 v :: vs)
    | _, _ => none

/-- The file with the integers of a list written to register `r` from cell `i` on. -/
def writeCells (p : Params) (r : Nat) : Nat → List Int → PolyFile → PolyFile
  | _, [], m => m
  | i, v :: vs, m => writeCells p r (i + 1) vs (polyWrite m (cellOffset p r i) (enc64 v))

/-! ## Reset -/

/-- Reset, by `rst` or by CTRL.SRST (R260, R261): the reset state of the same implementation. A command in flight is
aborted and a held SEED write discarded (R261, R262). What stands outside the block (the inputs) is not its state, and
the free values go on from a fresh one (R52 leaves the entropy state open; assumption 3). -/
def resetBlock (s : State) : State :=
  { State.resetOf s.params with
    entropy := ⟨none, s.entropy.drawn⟩
    inputs := s.inputs }

/-! ## Accepting a command -/

/-- The effect of accepting a word while L = none (R114): the read-back value, the latched record, BUSY (through L) and
DONE. The word is neither decoded nor checked. -/
def acceptCommand (w : Word) (s : State) : State :=
  { s with cmd := w, inflight := some ⟨w, s.cfg⟩, done := false }

/-- A host write of CMD (R40, R114): rejected with error BUSY while a command is in flight (R224), else accepted. -/
def writeCmd (w : Word) (s : State) : State :=
  match s.inflight with
  | some _ => recordError .busy s
  | none => acceptCommand w s

/-- Applying a SEED write of value `v` (R51): it reseeds a pseudo-random generator, and "If ENTROPY is not a pseudo-random
generator, a write has no effect". -/
def applySeed (v : Word) (s : State) : State :=
  match s.params.entropySource with
  | .pseudoRandom => { s with entropy := ⟨some v, s.entropy.drawn⟩ }
  | .trueRandom => s
  | .externalPort => s

/-- Holding a SEED write until the command in flight completes, in place of one held before (R51); without a
pseudo-random generator the write has no effect. -/
def holdSeed (v : Word) (s : State) : State :=
  match s.params.entropySource with
  | .pseudoRandom => { s with heldSeed := some v }
  | .trueRandom => s
  | .externalPort => s

/-- A host write of SEED (R51): held while a command is in flight, else applied. -/
def writeSeed (v : Word) (s : State) : State :=
  match s.inflight with
  | some _ => holdSeed v s
  | none => applySeed v s

/-! ## Checks, failure and completion of a command -/

/-- A ring degree is illegal if it is 0, above NMAX or no power of two (R222). -/
def badDegree (p : Params) (n : Word) : Bool :=
  n == 0 || decide (p.nmax < n.toNat) || n &&& (n - 1) != 0

/-- The checks of R222 after decoding, in the spec's order: `used` are the register fields the command uses, and `range`
is UNIF's dr. The first check that applies is the command's error. -/
def check (p : Params) (l : InFlight) (used : List Nat) (ms : ModSel) (range : Option RangeSel) : ErrCode :=
  if used.any fun r => decide (p.nreg ≤ r) then .badReg
  else if badDegree p l.cfg.n then .badDegree
  else if modulus l ms ≤ 0 then .badModulus
  else if range = some .bounds ∧ sext64 l.cfg.umin > sext64 l.cfg.umax then .badRange
  else .noError

/-- A SEED write that was held is applied (R51). -/
def applyHeldSeed (s : State) : State :=
  match s.heldSeed with
  | some v => { applySeed v s with heldSeed := none }
  | none => s

/-- The end of every completion step, success or failure (R115, R223): BUSY <- 0 (through L), DONE <- 1, a held SEED
write applied, L <- none. -/
def finishCommand (s : State) : State :=
  { applyHeldSeed s with done := true, inflight := none }

/-- A command that fails (R220, R223): the error is recorded and the command ends; no cell is written and no draw taken. -/
def failCommand (e : ErrCode) (s : State) : State := finishCommand (recordError e s)

/-- A command that succeeds with a result (R115, R228): all its cells are written and the command ends. -/
def completeCommand (rd : Nat) (result : List Int) (s : State) : State :=
  finishCommand { s with poly := writeCells s.params rd 0 result s.poly }

/-- The part of the completion step (R115) before the operands are read: the step is enabled only with a command in
flight, and a check that applies ends the command with its error (R222). -/
def withChecks (s : State) (used : List Nat) (ms : ModSel) (range : Option RangeSel)
    (k : InFlight → Host.Outcome State Fault Refusal) : Host.Outcome State Fault Refusal :=
  match s.inflight with
  | none => .refused .noCommandInFlight
  | some l =>
    match check s.params l used ms range with
    | .noError => k l
    | e => .next (failCommand e s)

/-- Reading an operand, cells 0 to L.N - 1 of a register (R33, R115): a fault if one of them is `undef` (R238). -/
def withOperand (s : State) (l : InFlight) (r : Nat) (k : List Int → Host.Outcome State Fault Refusal) :
    Host.Outcome State Fault Refusal :=
  match readCells s.params s.poly r 0 (ringDegree l) with
  | none => .fault .readUndefEngine
  | some a => k a

/-! ## Draws -/

/-- The free value behind draw `i` of the command that completes now (R190, R196); it does not depend on SEED (R51). -/
def rawDraw (s : State) (i : Nat) : Int := Config.freeDraw (s.entropy.drawn + i)

/-- The state after `n` draws (R196): the next draw is a fresh free value. -/
def takeDraws (n : Nat) (s : State) : State :=
  { s with entropy := ⟨s.entropy.seed, s.entropy.drawn + n⟩ }

/-! ## Whose turn it is -/

/-- Which of the agents moves next (R30), or reset. -/
inductive Turn where
  | engine
  | host (a : Access)
  | rst
  deriving DecidableEq, Repr

/-- The next move of the total order of R81, and the state with that input consumed. With no input left the engine
moves, so a command in flight completes (R274). -/
def takeTurn (s : State) : Turn × State :=
  match s.inputs with
  | [] => (.engine, s)
  | .engine :: rest => (.engine, { s with inputs := rest })
  | .access a :: rest => (.host a, { s with inputs := rest })
  | .rst :: rest => (.rst, { s with inputs := rest })

/-- The engine has no step while no command is in flight (R115): the block is idle and waits (R264). -/
def idle (s : State) : State := s

/-- The engine's turn: the completion of the command in flight. An illegal word fails with ILLEGAL_CMD (R115, R222). -/
def engineTurn (run : Instr → State → Host.Outcome State Fault Refusal) (s : State) :
    Host.Outcome State Fault Refusal :=
  match s.inflight with
  | none => .next (idle s)
  | some l =>
    match decode l.cmd with
    | .cmd i => run i s
    | .illegal _ => .next (failCommand .illegalCmd s)

/-- The state in which the engine's next step completes a command with the given word, its configuration latched from
`s` as an accepted CMD write latches it (R114). The engine moves before any input that waits. -/
def withCommand (w : Word) (s : State) : State :=
  acceptCommand w { s with inputs := if s.inputs.isEmpty then [] else .engine :: s.inputs }

end Sys2Proof.Machine
end

