-- ==== Sys2Proof/Machine/Bus.lean ====
section
/-! DEFINITION. The host's side of the block: the register map (R35), the window (R70, R71), and what each access of the
target port does (20_memory.md). -/

namespace Sys2Proof.Machine

/-- The registers of the map (R35). -/
inductive Reg where
  | id
  | param
  | ctrl
  | status
  | cmd
  | n
  | q
  | t
  | scalar
  | exp
  | std
  | gbound
  | umin
  | umax
  | seed
  deriving DecidableEq, Repr

/-- The byte offset of a register (R35). -/
def regOffset : Reg → Nat
  | .id => 0x000
  | .param => 0x008
  | .ctrl => 0x010
  | .status => 0x018
  | .cmd => 0x020
  | .n => 0x028
  | .q => 0x030
  | .t => 0x038
  | .scalar => 0x040
  | .exp => 0x048
  | .std => 0x050
  | .gbound => 0x058
  | .umin => 0x060
  | .umax => 0x068
  | .seed => 0x070

/-- The register at an offset; none at the reserved offsets (R35, R74). -/
def regAt (off : Nat) : Option Reg :=
  match off with
  | 0x000 => some .id
  | 0x008 => some .param
  | 0x010 => some .ctrl
  | 0x018 => some .status
  | 0x020 => some .cmd
  | 0x028 => some .n
  | 0x030 => some .q
  | 0x038 => some .t
  | 0x040 => some .scalar
  | 0x048 => some .exp
  | 0x050 => some .std
  | 0x058 => some .gbound
  | 0x060 => some .umin
  | 0x068 => some .umax
  | 0x070 => some .seed
  | _ => none

/-- What an aligned offset names: a register, a cell of the polynomial window (by its offset), or nothing (R70, R74). -/
inductive Target where
  | reg (r : Reg)
  | cell (off : Nat)
  | nothing
  deriving DecidableEq, Repr

/-- The decoding of an offset of the window (R35, R70, R74). -/
def targetOf (p : Params) (off : Nat) : Target :=
  if off < 0x1000 then
    match regAt off with
    | some r => .reg r
    | none => .nothing
  else if off < windowSize p then .cell off
  else .nothing

/-- The access has a legal form: 64 bits wide, at a multiple of 8, all 8 lanes enabled (R72). -/
def legalForm (a : Access) : Bool :=
  decide (a.width = .w64) && decide (a.offset % 8 = 0) && decide (a.lanes = 0xFF)

/-- The ID constant (R38). -/
def idWord : Word := 0x00000001524C5745

/-- PARAM as it is read (R39): LOG2_NMAX in bits 4:0, NREG in bits 12:8. -/
def paramWord (p : Params) : Word := BitVec.ofNat 64 (p.log2Nmax + 256 * p.nreg)

/-- What a register reads as. Reads have no side effects (R76). -/
def readReg (s : State) : Reg → Word
  | .id => idWord
  | .param => paramWord s.params
  | .ctrl => ctrlWord s
  | .status => statusWord s
  | .cmd => s.cmd
  | .n => s.cfg.n
  | .q => s.cfg.q
  | .t => s.cfg.t
  | .scalar => s.cfg.scalar
  | .exp => s.cfg.exp
  | .std => s.cfg.std
  | .gbound => s.cfg.gbound
  | .umin => s.cfg.umin
  | .umax => s.cfg.umax
  | .seed => 0

/-- A write of CTRL (R36): with bit 1 set a soft reset, which discards the IE bit of the write, else IE <- bit 0. -/
def writeCtrl (v : Word) (s : State) : State :=
  if bit v 1 then resetBlock s else { s with ie := bit v 0 }

/-- What a write of a register does (R36, R37, R40 to R49, R51, R55, R76). Writes of ID and PARAM are ignored. -/
def writeReg (s : State) (v : Word) : Reg → State
  | .id => s
  | .param => s
  | .ctrl => writeCtrl v s
  | .status => writeStatus v s
  | .cmd => writeCmd v s
  | .n => { s with cfg := { s.cfg with n := v } }
  | .q => { s with cfg := { s.cfg with q := v } }
  | .t => { s with cfg := { s.cfg with t := v } }
  | .scalar => { s with cfg := { s.cfg with scalar := v } }
  | .exp => { s with cfg := { s.cfg with exp := v } }
  | .std => { s with cfg := { s.cfg with std := v } }
  | .gbound => { s with cfg := { s.cfg with gbound := v } }
  | .umin => { s with cfg := { s.cfg with umin := v } }
  | .umax => { s with cfg := { s.cfg with umax := v } }
  | .seed => writeSeed v s

/-- The state with the data of a read on the target port (assumption 4). -/
def respond (v : Word) (s : State) : State := { s with readData := some v }

/-- The state after a write, which returns no data (assumption 4). -/
def respondNone (s : State) : State := { s with readData := none }

/-- An access to a register: legal whether or not a command is in flight (R80). -/
def accessReg (s : State) (r : Reg) : AccessKind → Host.Outcome State Fault Refusal
  | .read => .next (respond (readReg s r) s)
  | .write v => .next (respondNone (writeReg s v r))

/-- An access to a cell of the polynomial window, where R77 and R78 describe it, and the model's faults of R79 and R238
where they do not. -/
def accessCell (s : State) (off : Nat) (k : AccessKind) : Host.Outcome State Fault Refusal :=
  if busy s then .fault .polyAccessWhileBusy
  else
    match k with
    | .read =>
      match polyRead s.poly off with
      | some v => .next (respond v s)
      | none => .fault .readUndefHost
    | .write v => .next (respondNone { s with poly := polyWrite s.poly off v })

/-- One host access at the target port, performed completely (R81). An access of illegal form, or to an offset that names
nothing, is a bus error, which the model treats as a fault (R72, R74). -/
def hostAccess (a : Access) (s : State) : Host.Outcome State Fault Refusal :=
  if legalForm a then
    match targetOf s.params a.offset with
    | .reg r => accessReg s r a.kind
    | .cell off => accessCell s off a.kind
    | .nothing => .fault .busError
  else .fault .busError

/-- Byte lane `k` of a word, at byte address offset + k (R73). -/
def byteLane (v : Word) (k : Nat) : Byte := BitVec.ofNat 8 (bits v (8 * k + 7) (8 * k))

/-- The window size rounded up to a power of two, to a multiple of which BASE is aligned (R10). -/
def windowSpan (p : Params) : Nat := 2 ^ (Nat.log2 (windowSize p - 1) + 1)

/-- BASE (R10), which the platform chooses (assumption 2). -/
def baseAddress (p : Params) : Nat := Config.baseUnits * windowSpan p

/-- The bus address of an offset (R10: "Every offset in this spec is relative to BASE"). -/
def busAddress (p : Params) (off : Nat) : Nat := baseAddress p + off

end Sys2Proof.Machine
end

