-- ==== Sys2Proof/Machine/Ring.lean ====
section
/-! DEFINITION. The exact integer arithmetic of the commands (R12): the centered representative (R130), convolution
(R150), polynomial long division (R151), ring reduction (R152), and the ring operations built on them. A polynomial is
the list of its coefficients, constant term first (R20). -/

namespace Sys2Proof.Machine

/-- `emod(v, M)`, the canonical residue in [0, M) for M ≥ 1 (R18). -/
def emod (v M : Int) : Int := v % M

/-- `center(v, M)`, the centered representative in (-M/2, M/2] (R130). -/
def center (v M : Int) : Int :=
  if 2 * emod v M > M then emod v M - M else emod v M

/-- Coefficient `i` of a polynomial, 0 beyond its list (R20). -/
def coeff (a : List Int) (i : Nat) : Int := a.getD i 0

/-- deg(a) + 1, so 0 for the zero polynomial (R20). -/
def degSucc : List Int → Nat
  | [] => 0
  | x :: xs =>
    match degSucc xs with
    | 0 => if x = 0 then 0 else 1
    | k + 1 => k + 2

/-- deg(a): the largest i with a[i] ≠ 0, or -1 for the zero polynomial (R20). -/
def deg (a : List Int) : Int := (degSucc a : Int) - 1

/-- Coefficient `k` of the raw product: the sum of a[i]*b[j] over all i + j = k (R150). -/
def convCoeff (a b : List Int) (k : Nat) : Int :=
  ((List.range (k + 1)).map fun i => coeff a i * coeff b (k - i)).sum

/-- `conv(a, b)`, of length La + Lb - 1 (R150). -/
def conv (a b : List Int) : List Int :=
  (List.range (a.length + b.length - 1)).map (convCoeff a b)

/-- `rem - c * x^k * den`, at the length of `rem` (the inner loop of R151). -/
def subShifted (rem den : List Int) (c : Int) (k : Nat) : List Int :=
  (List.range rem.length).map fun t =>
    if k ≤ t then coeff rem t - c * coeff den (t - k) else coeff rem t

/-- The loop of R151 for a divisor of degree `d`: each pass eliminates the leading term of the remainder. Every pass
lowers the remainder's degree, so `fuel` = the length of the numerator is never used up. -/
def divLoop (den : List Int) (d : Nat) : Nat → List Int → List Int → List Int × List Int
  | 0, quot, rem => (quot, rem)
  | fuel + 1, quot, rem =>
    if (d : Int) ≤ deg rem then
      let top := (deg rem).toNat
      let c := coeff rem top
      divLoop den d fuel (quot.set (top - d) (coeff quot (top - d) + c)) (subShifted rem den c (top - d))
    else (quot, rem)

/-- `polydiv(num, den)`: quotient and remainder of long division by a monic `den` (R151). -/
def polydiv (num den : List Int) : List Int × List Int :=
  let d := (deg den).toNat
  divLoop den d num.length (List.replicate (max 1 (num.length - d)) 0) num

/-- The reduction polynomial f = x^N + 1 as a list of length N + 1 (R20). -/
def ringPoly (n : Nat) : List Int := 1 :: (List.replicate (n - 1) 0 ++ [1])

/-- `ringred(c, N)`: the remainder of long division by f, as N coefficients (R152). -/
def ringred (c : List Int) (n : Nat) : List Int :=
  (List.range n).map (coeff (polydiv c (ringPoly n)).2)

/-- Every coefficient replaced by its centered representative. -/
def centerAll (M : Int) (a : List Int) : List Int := a.map fun v => center v M

/-- The coefficientwise sum of R154, centered. -/
def ringAdd (M : Int) (a b : List Int) : List Int := centerAll M (List.zipWith (· + ·) a b)

/-- The product of R155: convolution, ring reduction, centering. -/
def ringMul (M : Int) (n : Nat) (a b : List Int) : List Int := centerAll M (ringred (conv a b) n)

/-- The scalar multiple of R156, centered. -/
def ringScale (M k : Int) (a : List Int) : List Int := centerAll M (a.map fun v => k * v)

/-- The identity "1" of length N: [center(1, M), 0, ..., 0] (R157). -/
def ringOne (M : Int) (n : Nat) : List Int := center 1 M :: List.replicate (n - 1) 0

/-- The power of R157: the identity, multiplied e times by `a`. -/
def ringPow (M : Int) (n : Nat) (a : List Int) : Nat → List Int
  | 0 => ringOne M n
  | e + 1 => ringMul M n (ringPow M n a e) a

end Sys2Proof.Machine
end

