-- ==== Sys2Proof/Machine/Sampler.lean ====
section
/-! DEFINITION. The draws of the samplers (R190, R192, R195): an unconstrained free value brought into the draw's stated
range, so that a draw is any integer of that range and nothing more is known of it (assumption 3). -/

namespace Sys2Proof.Machine

/-- An integer of [lo, hi] for lo ≤ hi: `raw` itself where it lies there, else its image modulo the range's size. -/
def intoRange (lo hi raw : Int) : Int := lo + (raw - lo) % (hi - lo + 1)

/-- `DrawGauss(sigma, B)` (R192): an integer of [-B, B], and 0 where sigma = 0. -/
def drawGauss (sigma bound : Nat) (raw : Int) : Int :=
  if sigma = 0 then 0 else intoRange (-(bound : Int)) bound raw

/-- `DrawUniform(lo, hi)` (R195): an integer of [lo, hi]. -/
def drawUniform (lo hi raw : Int) : Int := intoRange lo hi raw

/-- The N coefficients of GAUSS (R191): one draw each, in index order (R196), centered. -/
def gaussCells (M : Int) (n sigma bound : Nat) (raw : Nat → Int) : List Int :=
  (List.range n).map fun i => center (drawGauss sigma bound (raw i)) M

/-- The N coefficients of UNIF (R194): one draw each, in index order (R196), centered. -/
def uniformCells (M : Int) (n : Nat) (lo hi : Int) (raw : Nat → Int) : List Int :=
  (List.range n).map fun i => center (drawUniform lo hi (raw i)) M

end Sys2Proof.Machine
end

