-- ==== Sys2Proof/Machine/Noise.lean ====
section
/-! DEFINITION. The meanings of GAUSS and UNIF (42_sampler.md). Their draws are free values (R190); no source register is
read, so nothing in the polynomial file can fault. -/

namespace Sys2Proof.Machine

/-- GAUSS (R191): L.N centered draws of [-B, B], all 0 where STD = 0. -/
def execGauss (rd : Nat) (ms : ModSel) (s : State) : Host.Outcome State Fault Refusal :=
  withChecks s [rd] ms none fun l =>
    let result := gaussCells (modulus l ms) (ringDegree l) (sigmaUnits l) (tailBound l) (rawDraw s)
    .next (completeCommand rd result (takeDraws (ringDegree l) s))

/-- UNIF (R194): L.N centered draws of the selected range. -/
def execUnif (rd : Nat) (ms : ModSel) (dr : RangeSel) (s : State) : Host.Outcome State Fault Refusal :=
  withChecks s [rd] ms (some dr) fun l =>
    let range := uniformRange l ms dr
    let result := uniformCells (modulus l ms) (ringDegree l) range.1 range.2 (rawDraw s)
    .next (completeCommand rd result (takeDraws (ringDegree l) s))

end Sys2Proof.Machine
end

