-- ==== Sys2Proof/Machine/Reduction.lean ====
section
/-! DEFINITION. The meaning of CENTER (40_reduction.md). -/

namespace Sys2Proof.Machine

/-- CENTER (R134): P[rd][i] <- center(P[rs1][i], M) for i < L.N. -/
def execCenter (rd rs1 : Nat) (ms : ModSel) (s : State) : Host.Outcome State Fault Refusal :=
  withChecks s [rd, rs1] ms none fun l =>
    withOperand s l rs1 fun a =>
      .next (completeCommand rd (centerAll (modulus l ms) a) s)

end Sys2Proof.Machine
end

