-- ==== Sys2Proof/Machine/RingArith.lean ====
section
/-! DEFINITION. The meanings of ADD, MUL, SMUL and POW (41_ring_arith.md). All operands are read before a cell of rd is
written, so rd may be a source and rs1 may be rs2 (R115). -/

namespace Sys2Proof.Machine

/-- ADD (R154): the centered coefficientwise sum, with no ring reduction. -/
def execAdd (rd rs1 rs2 : Nat) (ms : ModSel) (s : State) : Host.Outcome State Fault Refusal :=
  withChecks s [rd, rs1, rs2] ms none fun l =>
    withOperand s l rs1 fun a =>
      withOperand s l rs2 fun b =>
        .next (completeCommand rd (ringAdd (modulus l ms) a b) s)

/-- MUL (R155): the product in Z_M[x]/(x^N + 1). -/
def execMul (rd rs1 rs2 : Nat) (ms : ModSel) (s : State) : Host.Outcome State Fault Refusal :=
  withChecks s [rd, rs1, rs2] ms none fun l =>
    withOperand s l rs1 fun a =>
      withOperand s l rs2 fun b =>
        .next (completeCommand rd (ringMul (modulus l ms) (ringDegree l) a b) s)

/-- SMUL (R156): every coefficient times the latched SCALAR, centered. -/
def execSmul (rd rs1 : Nat) (ms : ModSel) (s : State) : Host.Outcome State Fault Refusal :=
  withChecks s [rd, rs1] ms none fun l =>
    withOperand s l rs1 fun a =>
      .next (completeCommand rd (ringScale (modulus l ms) (scalarOperand l) a) s)

/-- POW (R157): the power with the latched EXP; the operand is read even when the exponent is 0. -/
def execPow (rd rs1 : Nat) (ms : ModSel) (s : State) : Host.Outcome State Fault Refusal :=
  withChecks s [rd, rs1] ms none fun l =>
    withOperand s l rs1 fun a =>
      .next (completeCommand rd (ringPow (modulus l ms) (ringDegree l) a (exponentOperand l)) s)

end Sys2Proof.Machine
end

