-- ==== Sys2Proof/Machine/Dispatch.lean ====
section
/-! DEFINITION. The meaning of each command: one arm per constructor. -/

namespace Sys2Proof.Machine

/-- The completion of a decoded command on the state that holds it in flight (R115). -/
def exec (i : Instr) (s : State) : Host.Outcome State Fault Refusal :=
  match i with
  | .center rd rs1 ms => Sys2Proof.Machine.execCenter rd rs1 ms s
  | .add rd rs1 rs2 ms => Sys2Proof.Machine.execAdd rd rs1 rs2 ms s
  | .mul rd rs1 rs2 ms => Sys2Proof.Machine.execMul rd rs1 rs2 ms s
  | .smul rd rs1 ms => Sys2Proof.Machine.execSmul rd rs1 ms s
  | .pow rd rs1 ms => Sys2Proof.Machine.execPow rd rs1 ms s
  | .gauss rd ms => Sys2Proof.Machine.execGauss rd ms s
  | .unif rd ms dr => Sys2Proof.Machine.execUnif rd ms dr s

end Sys2Proof.Machine
end

