-- ==== Sys2Proof/Machine/Step.lean ====
section
/-! DEFINITION. One step of the machine: the next move of the total order of host accesses and engine steps (R81). -/

namespace Sys2Proof.Machine

/-- One step: the engine completes the command in flight, a host access is performed, or the block is reset (R30, R81,
R260). -/
def step (s : State) : Host.Outcome State Fault Refusal :=
  match takeTurn s with
  | (.engine, s') => engineTurn exec s'
  | (.host a, s') => hostAccess a s'
  | (.rst, s') => .next (resetBlock s')

/-- `s` with an instruction placed where the next step takes it from: the block has no program counter (R34), so this is
the in-flight record, filled as an accepted CMD write fills it (R114; assumption 6). -/
def State.withFetchWord (s : State) (nbits w : Nat) : State := withCommand (wordOfTable nbits w) s

end Sys2Proof.Machine
end

