-- ==== Sys2Proof/Machine/Assembler.lean ====
section
/-! DEFINITION. The assembly syntax (R110) and the pseudo-instructions (R111). Nothing in the machine's step uses this
file. -/

namespace Sys2Proof.Machine

/-- `COPY.<m> pd, ps` stands for CENTER (R111). -/
def pseudoCopy (pd ps : Nat) (m : ModSel) : Instr := .center pd ps m

/-- `SQR.<m> pd, ps` stands for MUL of a register by itself (R111). -/
def pseudoSqr (pd ps : Nat) (m : ModSel) : Instr := .mul pd ps ps m

/-- `DBL.<m> pd, ps` stands for ADD of a register to itself (R111). -/
def pseudoDbl (pd ps : Nat) (m : ModSel) : Instr := .add pd ps ps m

/-- `PROJT pd, ps` stands for CENTER.T (R111). -/
def pseudoProjT (pd ps : Nat) : Instr := .center pd ps .t

/-- A letter in lower case: "The mnemonic is case-insensitive" (R110). -/
def lowerCase (c : Char) : Char :=
  if 65 ≤ c.toNat ∧ c.toNat ≤ 90 then Char.ofNat (c.toNat + 32) else c

/-- A text cut at every separator. -/
def splitAt (sep : Char) : List Char → List (List Char)
  | [] => [[]]
  | c :: cs =>
    match splitAt sep cs with
    | [] => [[c]]
    | w :: ws => if c = sep then [] :: w :: ws else (c :: w) :: ws

/-- An operand without the blanks around it. DESIGN CHOICE (assumption 14): R110 gives the forms of the operands only and
says nothing of blanks. The model drops those before and after an operand and keeps one inside, so that the operand is
then no register name and not `range`, and the line is refused. -/
def dropBlanks (w : List Char) : List Char :=
  ((w.dropWhile fun c => c = ' ').reverse.dropWhile fun c => c = ' ').reverse

/-- The mnemonic, up to the first blank, and the rest of the line. -/
def cutMnemonic : List Char → List Char × List Char
  | [] => ([], [])
  | c :: cs => if c = ' ' then ([], cs) else (c :: (cutMnemonic cs).1, (cutMnemonic cs).2)

/-- A decimal digit. -/
def digit? (c : Char) : Option Nat :=
  if 48 ≤ c.toNat ∧ c.toNat ≤ 57 then some (c.toNat - 48) else none

/-- A register name `p0` to `p15` with an index below R: "the assembler refuses an index ≥ R" (R110). -/
def register? (nreg : Nat) (w : List Char) : Option Nat :=
  match w with
  | ['p', a] => (digit? a).bind fun n => if n < nreg then some n else none
  | ['p', '1', b] => (digit? b).bind fun n => if n ≤ 5 ∧ 10 + n < nreg then some (10 + n) else none
  | _ => none

/-- The suffix `<m>` of a mnemonic: `Q`, `T`, or omitted, which means `Q` (R110). -/
def suffix? : List (List Char) → Option ModSel
  | [] => some .q
  | [['q']] => some .q
  | [['t']] => some .t
  | _ => none

/-- An operand list of two registers. -/
def twoRegs (nreg : Nat) (ops : List (List Char)) (k : Nat → Nat → Instr) : Option Instr :=
  match ops with
  | [a, b] => (register? nreg a).bind fun x => (register? nreg b).map fun y => k x y
  | _ => none

/-- An operand list of three registers. -/
def threeRegs (nreg : Nat) (ops : List (List Char)) (k : Nat → Nat → Nat → Instr) : Option Instr :=
  match ops with
  | [a, b, c] =>
    (register? nreg a).bind fun x => (register? nreg b).bind fun y => (register? nreg c).map fun z => k x y z
  | _ => none

/-- The operand list of UNIF: `pd`, or `pd, range` (R110). -/
def unifOperands (nreg : Nat) (ops : List (List Char)) (m : ModSel) : Option Instr :=
  match ops with
  | [a] => (register? nreg a).map fun x => .unif x m .whole
  | [a, w] => if w = "range".toList then (register? nreg a).map fun x => .unif x m .bounds else none
  | _ => none

/-- The command of a mnemonic, a suffix and an operand list. -/
def assembleParts (nreg : Nat) (name : List Char) (m : ModSel) (ops : List (List Char)) : Option Instr :=
  if name = "center".toList then twoRegs nreg ops fun x y => .center x y m
  else if name = "add".toList then threeRegs nreg ops fun x y z => .add x y z m
  else if name = "mul".toList then threeRegs nreg ops fun x y z => .mul x y z m
  else if name = "smul".toList then twoRegs nreg ops fun x y => .smul x y m
  else if name = "pow".toList then twoRegs nreg ops fun x y => .pow x y m
  else if name = "gauss".toList then
    match ops with
    | [a] => (register? nreg a).map fun x => .gauss x m
    | _ => none
  else if name = "unif".toList then unifOperands nreg ops m
  else if name = "copy".toList then twoRegs nreg ops fun x y => pseudoCopy x y m
  else if name = "sqr".toList then twoRegs nreg ops fun x y => pseudoSqr x y m
  else if name = "dbl".toList then twoRegs nreg ops fun x y => pseudoDbl x y m
  else none

/-- The command a line of assembly stands for on a block with `nreg` polynomial registers (R110, R111), if it stands for
one. -/
def assemble (nreg : Nat) (line : String) : Option Instr :=
  let parts := cutMnemonic line.toList
  let ops := (splitAt ',' parts.2).map dropBlanks
  let name := splitAt '.' (parts.1.map lowerCase)
  if name = ["projt".toList] then twoRegs nreg ops pseudoProjT
  else
    match name with
    | [] => none
    | base :: suffix => (suffix? suffix).bind fun m => assembleParts nreg base m ops

end Sys2Proof.Machine
end

