-- ==== Sys2Proof/Machine/HostProgram.lean ====
section
/-! DEFINITION. The host program notation of R112: each form is a sequence of host accesses, here as the inputs they are to
the block. A host program runs outside the block (R34); nothing in the machine's step uses this file. -/

namespace Sys2Proof.Machine

/-- `MemRead(addr, 8)` (R23). -/
def memRead (off : Nat) : Input := .access ⟨.read, off, .w64, 0xFF⟩

/-- `MemWrite(addr, 8, v)` (R23). -/
def memWrite (off : Nat) (v : Word) : Input := .access ⟨.write v, off, .w64, 0xFF⟩

/-- `wr REG, v` (R112). -/
def wr (r : Reg) (v : Int) : List Input := [memWrite (regOffset r) (enc64 v)]

/-- `rd REG` (R112). -/
def rd (r : Reg) : List Input := [memRead (regOffset r)]

/-- The writes of a list of coefficients to register `k` from cell `i` on. -/
def writesFrom (p : Params) (k : Nat) : Nat → List Int → List Input
  | _, [] => []
  | i, c :: cs => memWrite (cellOffset p k i) (enc64 c) :: writesFrom p k (i + 1) cs

/-- `wrpoly pK, [c0, ..., cm]` (R112). -/
def wrPoly (p : Params) (k : Nat) (cs : List Int) : List Input := writesFrom p k 0 cs

/-- `rdpoly pK`: the cells 0 to N - 1 (R112). -/
def rdPoly (p : Params) (k n : Nat) : List Input := (List.range n).map fun i => memRead (cellOffset p k i)

/-- `wait` (R112): STATUS is read until BUSY = 0. Here `polls` reads find the command still in flight, then it completes
and one more read finds BUSY = 0; every wait that ends has this form (R270). -/
def waitPolls (polls : Nat) : List Input :=
  List.replicate polls (memRead (regOffset .status)) ++ [.engine, memRead (regOffset .status)]

/-- `cmd <instr>` (R112). -/
def cmdThenWait (i : Instr) (polls : Nat) : List Input := memWrite (regOffset .cmd) (encode i) :: waitPolls polls

/-- `NEG.<m> pd, ps` (R112): SCALAR is left at -1. -/
def negSeq (pd ps : Nat) (m : ModSel) (polls : Nat) : List Input :=
  wr .scalar (-1) ++ cmdThenWait (.smul pd ps m) polls

/-- `ZERO.<m> pd, ps` (R112). -/
def zeroSeq (pd ps : Nat) (m : ModSel) (polls : Nat) : List Input :=
  wr .scalar 0 ++ cmdThenWait (.smul pd ps m) polls

/-- `ONE.<m> pd, ps` (R112). -/
def oneSeq (pd ps : Nat) (m : ModSel) (polls : Nat) : List Input :=
  wr .exp 0 ++ cmdThenWait (.pow pd ps m) polls

end Sys2Proof.Machine
end

