-- ==== Sys2Proof/Safety.lean ====
section
/-! DEFINITION. The terms in which claims about the machine are stated: the invariant, what passes the checks, how a
command ends, what it leaves alone, and when a run is over. -/

namespace Sys2Proof.Machine

/-- The offset of a cell of the polynomial window (R70, R71). -/
abbrev IsCellOffset (p : Params) (off : Nat) : Prop := 0x1000 ≤ off ∧ off < windowSize p ∧ off % 8 = 0

/-- The invariant of the machine: sizes the spec admits; the polynomial file in canonical form and holding only cells that
exist; ERR is NONE exactly while ERR_VALID = 0 (R37); a SEED write is held only while a command is in flight, and without a
pseudo-random generator none is held and none was applied (R51). -/
abbrev State.Inv (s : State) : Prop :=
  s.params.Wf ∧ PolyFile.Wf s.poly ∧ (∀ e ∈ s.poly, IsCellOffset s.params e.1) ∧
    (s.errValid = false ↔ s.err = .noError) ∧ (s.inflight = none → s.heldSeed = none) ∧
    (s.params.entropySource ≠ .pseudoRandom → s.heldSeed = none ∧ s.entropy.seed = none)

/-- "a power of two with 1 ≤ L.N ≤ NMAX" (R41). -/
def LegalDegree (p : Params) (n : Nat) : Prop := ∃ k, k ≤ p.log2Nmax ∧ n = 2 ^ k

/-- No register field the command uses is ≥ R (R222). -/
def RegsInRange (p : Params) (i : Instr) : Prop := ∀ r ∈ i.dest :: i.sources, r < p.nreg

/-- UNIF with dr = 0 has UMIN ≤ UMAX (R222); every other command has no range. -/
def RangeOrdered (l : InFlight) (i : Instr) : Prop :=
  ∀ rd ms, i = .unif rd ms .bounds → sext64 l.cfg.umin ≤ sext64 l.cfg.umax

/-- The command passes every check of R222, said as the conditions themselves. -/
def Passes (p : Params) (l : InFlight) (i : Instr) : Prop :=
  RegsInRange p i ∧ LegalDegree p (ringDegree l) ∧ 0 < modulus l i.modSel ∧ RangeOrdered l i

/-- Cells 0 to n - 1 of register `r` hold the list `a` (R21: P[r][0:n]). -/
def HoldsPoly (s : State) (r n : Nat) (a : List Int) : Prop :=
  a.length = n ∧ ∀ k, k < n → cell s r k = some (coeff a k)

/-- What no completion step changes, whether the command succeeds or fails: sizes, CTRL, the CMD read-back, the nine
configuration registers ("No command writes them", R56), and what stands outside the block. -/
def SameOutsideEngine (s t : State) : Prop :=
  t.params = s.params ∧ t.ie = s.ie ∧ t.cmd = s.cmd ∧ t.cfg = s.cfg ∧ t.inputs = s.inputs ∧ t.readData = s.readData

/-- How every completion step ends (R115, R223): DONE = 1, BUSY = 0, L = none, a held SEED write applied, which without a
pseudo-random generator has no effect (R51). -/
def CommandOver (s t : State) : Prop :=
  t.done = true ∧ busy t = false ∧ t.inflight = none ∧ t.heldSeed = none ∧
    t.entropy.seed =
      if s.params.entropySource = .pseudoRandom then s.heldSeed.or s.entropy.seed else s.entropy.seed

/-- Every cell outside cells 0 to n - 1 of register `rd` reads as before. -/
def CellsKept (s t : State) (rd n : Nat) : Prop :=
  ∀ off, (∀ k, k < n → off ≠ cellOffset s.params rd k) → polyRead t.poly off = polyRead s.poly off

/-- The outcome is a success that leaves `f k` in cell `k` of the destination for every k < n, ERR_VALID and ERR as they
were, and the command over (R115, R223). -/
def SucceedsWith (s : State) (o : Host.Outcome State Fault Refusal) (rd n : Nat) (f : Nat → Int) : Prop :=
  ∃ t, o = .next t ∧ (∀ k, k < n → cell t rd k = some (f k)) ∧ t.errValid = s.errValid ∧ t.err = s.err ∧
    CommandOver s t

/-- The outcome is a failure with error `e` (R220, R223, R225): no cell written, no draw taken, the first error kept,
nothing else changed. -/
def FailsWith (s : State) (o : Host.Outcome State Fault Refusal) (e : ErrCode) : Prop :=
  ∃ t, o = .next t ∧ t.poly = s.poly ∧ t.entropy.drawn = s.entropy.drawn ∧ t.errValid = true ∧
    t.err = (if s.errValid then s.err else e) ∧ SameOutsideEngine s t ∧ CommandOver s t

/-- A word that R106 or R107 calls illegal: a reserved bit set, a reserved opcode, or an unused field that is not 0. -/
def IllegalWord (w : Word) : Prop :=
  bits w 63 18 ≠ 0 ∨ bits w 3 0 = 0 ∨ 8 ≤ bits w 3 0 ∨
    ((bits w 3 0 = 1 ∨ bits w 3 0 = 4 ∨ bits w 3 0 = 5) ∧ (bits w 15 12 ≠ 0 ∨ bits w 17 17 ≠ 0)) ∨
    ((bits w 3 0 = 2 ∨ bits w 3 0 = 3) ∧ bits w 17 17 ≠ 0) ∨
    (bits w 3 0 = 6 ∧ (bits w 11 8 ≠ 0 ∨ bits w 15 12 ≠ 0 ∨ bits w 17 17 ≠ 0)) ∨
    (bits w 3 0 = 7 ∧ (bits w 11 8 ≠ 0 ∨ bits w 15 12 ≠ 0))

/-- The block as reset leaves it (R261), for the sizes it had: every register of R35 at its reset value, no command in
flight, no held SEED write, every cell `undef`. -/
def IsReset (s t : State) : Prop :=
  t.params = s.params ∧ t.ie = false ∧ t.done = false ∧ t.errValid = false ∧ t.err = .noError ∧ t.cmd = 0 ∧
    t.cfg = ConfigRegs.zero ∧ t.inflight = none ∧ t.heldSeed = none ∧ ∀ off, polyRead t.poly off = none

/-- The end of a run (R274): the host has made its last access and no command is in flight. -/
abbrev State.AtEnd (s : State) : Prop := s.inputs = [] ∧ s.inflight = none

/-- `k` steps from `s` lead to `t` with no model fault (R238, R274). -/
def RunsTo (k : Nat) (s t : State) : Prop := Host.Core.run Sys2Proof.core k s = .next t

/-- A legal 64-bit read at an offset (R23, R72). -/
def readAt (off : Nat) : Access := ⟨.read, off, .w64, 0xFF⟩

/-- A legal 64-bit write at an offset (R23, R72). -/
def writeAt (off : Nat) (v : Word) : Access := ⟨.write v, off, .w64, 0xFF⟩

end Sys2Proof.Machine
end

