-- ==== Sys2Proof/Certificates/Slice0/Obligations.lean ====
section
/-! DEFINITION. The statements for the provers. Each docstring names the rule it formalises; the model's own choices in a
statement are named by their log entry. -/

open Sys2Proof Sys2Proof.Machine

/-! ## Encoding -/

/-- Words written out from the field table of R101 and the opcode map of R102 decode to the commands they stand for. -/
def Obligations.TableWordsDecode : Prop :=
  decode 0x00000011 = .cmd (.center 1 0 .q) ∧ decode 0x00010011 = .cmd (.center 1 0 .t) ∧
    decode 0x00001022 = .cmd (.add 2 0 1 .q) ∧ decode 0x00000123 = .cmd (.mul 2 1 0 .q) ∧
    decode 0x000003F4 = .cmd (.smul 15 3 .q) ∧ decode 0x00010075 = .cmd (.pow 7 0 .t) ∧
    decode 0x00010006 = .cmd (.gauss 0 .t) ∧ decode 0x00020027 = .cmd (.unif 2 .q .whole) ∧
    decode 0x00000027 = .cmd (.unif 2 .q .bounds)

/-- R101, R102, R109: the word of a well-formed command decodes to that command, with every operand at every value. -/
def Obligations.DecodeOfEncode : Prop :=
  ∀ i : Instr, i.wellFormed = true → decode (encode i) = .cmd i

/-- R109, R110: a word that decodes is the word of the command it decodes to, so no two words are one command. -/
def Obligations.EncodeOfDecode : Prop :=
  ∀ (w : Word) (i : Instr), decode w = .cmd i → i.wellFormed = true ∧ encode i = w

/-- The second half of R109: w decodes to a row of opcode_table.json exactly when w[63:32] = 0 and
(w[31:0] AND mask) = match for that row. -/
def Obligations.DecodeAgreesWithTable : Prop :=
  ∀ w : Word,
    ((∃ rd rs1 ms, decode w = .cmd (.center rd rs1 ms)) ↔ w >>> 32 = 0 ∧ w &&& 0xFFFEF00F = 0x1) ∧
    ((∃ rd rs1 rs2 ms, decode w = .cmd (.add rd rs1 rs2 ms)) ↔ w >>> 32 = 0 ∧ w &&& 0xFFFE000F = 0x2) ∧
    ((∃ rd rs1 rs2 ms, decode w = .cmd (.mul rd rs1 rs2 ms)) ↔ w >>> 32 = 0 ∧ w &&& 0xFFFE000F = 0x3) ∧
    ((∃ rd rs1 ms, decode w = .cmd (.smul rd rs1 ms)) ↔ w >>> 32 = 0 ∧ w &&& 0xFFFEF00F = 0x4) ∧
    ((∃ rd rs1 ms, decode w = .cmd (.pow rd rs1 ms)) ↔ w >>> 32 = 0 ∧ w &&& 0xFFFEF00F = 0x5) ∧
    ((∃ rd ms, decode w = .cmd (.gauss rd ms)) ↔ w >>> 32 = 0 ∧ w &&& 0xFFFEFF0F = 0x6) ∧
    ((∃ rd ms dr, decode w = .cmd (.unif rd ms dr)) ↔ w >>> 32 = 0 ∧ w &&& 0xFFFCFF0F = 0x7)

/-- R106 and R107: a word with a reserved bit set, a reserved opcode or an unused field that is not 0 fails with
ILLEGAL_CMD when the engine completes it, and no other word is illegal. -/
def Obligations.IllegalWordsFail : Prop :=
  ∀ (s s' : State) (l : InFlight), takeTurn s = (.engine, s') → s'.inflight = some l →
    (IllegalWord l.cmd → FailsWith s' (step s) .illegalCmd) ∧
    (¬ IllegalWord l.cmd → ∃ i, decode l.cmd = .cmd i)

/-! ## The centered representative -/

/-- R131: center(v, M) is the unique integer congruent to v modulo M in (-M/2, M/2]; its range for odd and for even M, for
M = 1, and for every legal M. -/
def Obligations.CenterIsUniqueCenteredResidue : Prop :=
  ∀ v M : Int, 1 ≤ M →
    (M ∣ center v M - v ∧ -M < 2 * center v M ∧ 2 * center v M ≤ M) ∧
    (∀ c : Int, M ∣ c - v → -M < 2 * c → 2 * c ≤ M → c = center v M) ∧
    (M % 2 = 1 → -((M - 1) / 2) ≤ center v M ∧ center v M ≤ (M - 1) / 2) ∧
    (M % 2 = 0 → -(M / 2 - 1) ≤ center v M ∧ center v M ≤ M / 2 ∧ center (M / 2) M = M / 2) ∧
    (M = 1 → center v M = 0) ∧
    (M ≤ 2 ^ 63 - 1 → -(2 ^ 62 - 1) ≤ center v M ∧ center v M ≤ 2 ^ 62 - 1)

/-- R132: the laws of centering. -/
def Obligations.CenterLaws : Prop :=
  ∀ u v k M : Int, 1 ≤ M →
    center (center v M) M = center v M ∧
    center (v + k * M) M = center v M ∧
    (center v M = v ↔ -M < 2 * v ∧ 2 * v ≤ M) ∧
    center (u + v) M = center (center u M + center v M) M ∧
    center (u * v) M = center (center u M * center v M) M

/-! ## Polynomials -/

/-- R151: for a monic divisor, long division gives num = quot*den + rem with deg(rem) < deg(den), and quot and rem are
unique. -/
def Obligations.LongDivisionIsCorrect : Prop :=
  ∀ num den : List Int, 0 ≤ deg den → coeff den (deg den).toNat = 1 →
    (∀ k, coeff num k = convCoeff (polydiv num den).1 den k + coeff (polydiv num den).2 k) ∧
    deg (polydiv num den).2 < deg den ∧
    (polydiv num den).1.length = max 1 (num.length - (deg den).toNat) ∧
    (∀ quot rem : List Int, (∀ k, coeff num k = convCoeff quot den k + coeff rem k) → deg rem < deg den →
      (∀ k, coeff quot k = coeff (polydiv num den).1 k) ∧ ∀ k, coeff rem k = coeff (polydiv num den).2 k)

/-- R153: ring reduction by x^N + 1, which the model computes by long division (R152), is the negacyclic fold. -/
def Obligations.RingReductionIsNegacyclicFold : Prop :=
  ∀ (n : Nat) (c : List Int), 1 ≤ n → c.length = 2 * n - 1 →
    (∀ i, i + 1 < n → coeff (ringred c n) i = coeff c i - coeff c (i + n)) ∧
    coeff (ringred c n) (n - 1) = coeff c (n - 1)

/-- R155: the result of MUL is the product in Z_M[x]/(x^N + 1). It is centered, and it differs from the raw product by a
multiple of x^N + 1 and a multiple of M. -/
def Obligations.MulIsProductInQuotientRing : Prop :=
  ∀ (M : Int) (n : Nat) (a b : List Int), 1 ≤ M → 1 ≤ n → a.length = n → b.length = n →
    (ringMul M n a b).length = n ∧
    (∀ i, i < n → -M < 2 * coeff (ringMul M n a b) i ∧ 2 * coeff (ringMul M n a b) i ≤ M) ∧
    ∃ u v : List Int, ∀ k,
      convCoeff a b k = coeff (ringMul M n a b) k + convCoeff u (ringPoly n) k + M * coeff v k

/-- R159, first law: ADD and MUL are commutative (R155: "MUL is commutative in its operands"), and ADD is associative. -/
def Obligations.AddAndMulCommute : Prop :=
  ∀ (M : Int) (n : Nat) (a b c : List Int), 1 ≤ M → 1 ≤ n → a.length = n → b.length = n → c.length = n →
    ringAdd M a b = ringAdd M b a ∧ ringAdd M (ringAdd M a b) c = ringAdd M a (ringAdd M b c) ∧
    ringMul M n a b = ringMul M n b a

/-- R159, first law, for MUL: associative. -/
def Obligations.MulAssociates : Prop :=
  ∀ (M : Int) (n : Nat) (a b c : List Int), 1 ≤ M → 1 ≤ n → a.length = n → b.length = n → c.length = n →
    ringMul M n (ringMul M n a b) c = ringMul M n a (ringMul M n b c)

/-- R159, second law: MUL distributes over ADD. -/
def Obligations.MulDistributesOverAdd : Prop :=
  ∀ (M : Int) (n : Nat) (a b c : List Int), 1 ≤ M → 1 ≤ n → a.length = n → b.length = n → c.length = n →
    ringMul M n a (ringAdd M b c) = ringAdd M (ringMul M n a b) (ringMul M n a c)

/-- R159, third law: POW with e1 + e2 is the MUL of the POW results. -/
def Obligations.PowAddsExponents : Prop :=
  ∀ (M : Int) (n : Nat) (a : List Int) (e1 e2 : Nat), 1 ≤ M → 1 ≤ n → a.length = n →
    ringPow M n a (e1 + e2) = ringMul M n (ringPow M n a e1) (ringPow M n a e2)

/-- R159, fourth and fifth laws: scalar distributivity, and SMUL by k is MUL by [center(k, M), 0, ..., 0]. -/
def Obligations.ScalarLaws : Prop :=
  ∀ (M k : Int) (n : Nat) (a b : List Int), 1 ≤ M → 1 ≤ n → a.length = n → b.length = n →
    ringScale M k (ringAdd M a b) = ringAdd M (ringScale M k a) (ringScale M k b) ∧
    ringScale M k a = ringMul M n a (center k M :: List.replicate (n - 1) 0)

/-- The corner cases of R157: e = 0 gives the identity for every operand, e = 1 the centered operand, and x to the powers N
and 2N gives -1 and 1. -/
def Obligations.PowCornerCases : Prop :=
  ∀ (M : Int) (n : Nat) (a : List Int), 1 ≤ M → 1 ≤ n → a.length = n →
    ringPow M n a 0 = center 1 M :: List.replicate (n - 1) 0 ∧
    ringPow M n a 1 = centerAll M a ∧
    (2 ≤ n → ringPow M n (0 :: 1 :: List.replicate (n - 2) 0) n = center (-1) M :: List.replicate (n - 1) 0 ∧
      ringPow M n (0 :: 1 :: List.replicate (n - 2) 0) (2 * n) = center 1 M :: List.replicate (n - 1) 0)

/-! ## Draws -/

/-- R190, R192 and R195: whatever the free value, a draw lies in its stated range (and is 0 where sigma = 0), and every
integer of the range is a draw for some free value, so the model assumes nothing else of it. That a draw is a free value
brought into its range is the model's choice (assumption 3, DESIGN CHOICE). -/
def Obligations.DrawsAreAnyValueOfTheirRange : Prop :=
  (∀ (sigma bound : Nat) (raw : Int),
    -(bound : Int) ≤ drawGauss sigma bound raw ∧ drawGauss sigma bound raw ≤ bound ∧
      (sigma = 0 → drawGauss sigma bound raw = 0)) ∧
  (∀ (sigma bound : Nat) (z : Int), sigma ≠ 0 → -(bound : Int) ≤ z → z ≤ bound →
    ∃ raw, drawGauss sigma bound raw = z) ∧
  (∀ lo hi raw : Int, lo ≤ hi → lo ≤ drawUniform lo hi raw ∧ drawUniform lo hi raw ≤ hi) ∧
  (∀ lo hi z : Int, lo ≤ z → z ≤ hi → ∃ raw, drawUniform lo hi raw = z)

/-! ## Completion of a command -/

/-- R134: CENTER leaves center(a[i], M) in cells 0 to L.N - 1 of rd, where a is what rs1 held; rd may be rs1. -/
def Obligations.CenterCompletes : Prop :=
  ∀ (s : State) (l : InFlight) (rd rs1 : Nat) (ms : ModSel) (a : List Int),
    s.inflight = some l → Passes s.params l (.center rd rs1 ms) → HoldsPoly s rs1 (ringDegree l) a →
    SucceedsWith s (exec (.center rd rs1 ms) s) rd (ringDegree l) fun k => center (coeff a k) (modulus l ms)

/-- R154: ADD leaves center(a[i] + b[i], M); any of the registers may be equal. -/
def Obligations.AddCompletes : Prop :=
  ∀ (s : State) (l : InFlight) (rd rs1 rs2 : Nat) (ms : ModSel) (a b : List Int),
    s.inflight = some l → Passes s.params l (.add rd rs1 rs2 ms) →
    HoldsPoly s rs1 (ringDegree l) a → HoldsPoly s rs2 (ringDegree l) b →
    SucceedsWith s (exec (.add rd rs1 rs2 ms) s) rd (ringDegree l)
      fun k => center (coeff a k + coeff b k) (modulus l ms)

/-- R155: MUL leaves center(r[i], M), where r is the convolution reduced by x^N + 1; any of the registers may be equal. -/
def Obligations.MulCompletes : Prop :=
  ∀ (s : State) (l : InFlight) (rd rs1 rs2 : Nat) (ms : ModSel) (a b : List Int),
    s.inflight = some l → Passes s.params l (.mul rd rs1 rs2 ms) →
    HoldsPoly s rs1 (ringDegree l) a → HoldsPoly s rs2 (ringDegree l) b →
    SucceedsWith s (exec (.mul rd rs1 rs2 ms) s) rd (ringDegree l)
      fun k => center (coeff (ringred (conv a b) (ringDegree l)) k) (modulus l ms)

/-- R156: SMUL leaves center(k * a[i], M) for the latched scalar k. -/
def Obligations.SmulCompletes : Prop :=
  ∀ (s : State) (l : InFlight) (rd rs1 : Nat) (ms : ModSel) (a : List Int),
    s.inflight = some l → Passes s.params l (.smul rd rs1 ms) → HoldsPoly s rs1 (ringDegree l) a →
    SucceedsWith s (exec (.smul rd rs1 ms) s) rd (ringDegree l)
      fun k => center (sext64 l.cfg.scalar * coeff a k) (modulus l ms)

/-- R157: POW leaves the identity multiplied e times by a, for the latched exponent e: at e = 0 the identity, and at e + 1
the centered, ring-reduced product of what it leaves at e and a. -/
def Obligations.PowCompletes : Prop :=
  ∀ (s : State) (l : InFlight) (rd rs1 : Nat) (ms : ModSel) (a : List Int) (acc : Nat → List Int),
    s.inflight = some l → Passes s.params l (.pow rd rs1 ms) → HoldsPoly s rs1 (ringDegree l) a →
    acc 0 = center 1 (modulus l ms) :: List.replicate (ringDegree l - 1) 0 →
    (∀ e, acc (e + 1) = (ringred (conv (acc e) a) (ringDegree l)).map fun v => center v (modulus l ms)) →
    SucceedsWith s (exec (.pow rd rs1 ms) s) rd (ringDegree l) fun k => coeff (acc l.cfg.exp.toNat) k

/-- R191, R192: GAUSS leaves one centered draw z of [-B, B] in each of the cells 0 to L.N - 1, with z = 0 if STD = 0. -/
def Obligations.GaussCompletes : Prop :=
  ∀ (s : State) (l : InFlight) (rd : Nat) (ms : ModSel),
    s.inflight = some l → Passes s.params l (.gauss rd ms) →
    ∃ z : Nat → Int,
      (∀ k, -(l.cfg.gbound.toNat : Int) ≤ z k ∧ z k ≤ l.cfg.gbound.toNat ∧ (l.cfg.std = 0 → z k = 0)) ∧
      SucceedsWith s (exec (.gauss rd ms) s) rd (ringDegree l) fun k => center (z k) (modulus l ms)

/-- R194, R195, R105: UNIF leaves one centered draw of [0, M] (dr = 1) or of [UMIN, UMAX] (dr = 0) in each of the cells 0
to L.N - 1. -/
def Obligations.UnifCompletes : Prop :=
  ∀ (s : State) (l : InFlight) (rd : Nat) (ms : ModSel) (dr : RangeSel),
    s.inflight = some l → Passes s.params l (.unif rd ms dr) →
    ∃ z : Nat → Int,
      (∀ k, (dr = .whole → 0 ≤ z k ∧ z k ≤ modulus l ms) ∧
        (dr = .bounds → sext64 l.cfg.umin ≤ z k ∧ z k ≤ sext64 l.cfg.umax)) ∧
      SucceedsWith s (exec (.unif rd ms dr) s) rd (ringDegree l) fun k => center (z k) (modulus l ms)

/-- The frame of CENTER, ADD, MUL, SMUL and POW (R33, R56, R115): outside cells 0 to L.N - 1 of rd every cell reads as
before; of the registers only DONE, BUSY (through L), a held SEED write and, in a command that fails and writes no cell,
ERR_VALID and ERR change; no draw is taken (the count of draws is the model's own field, assumption 3). -/
def Obligations.RingCommandFrame : Prop :=
  ∀ (i : Instr) (s t : State) (l : InFlight), (∀ rd ms, i ≠ .gauss rd ms) → (∀ rd ms dr, i ≠ .unif rd ms dr) →
    s.inflight = some l → exec i s = .next t →
    SameOutsideEngine s t ∧ CommandOver s t ∧ CellsKept s t i.dest (ringDegree l) ∧
      t.entropy.drawn = s.entropy.drawn ∧
      ((t.errValid = s.errValid ∧ t.err = s.err) ∨ (t.poly = s.poly ∧ s.errValid = false ∧ t.errValid = true))

/-- The frame of GAUSS and UNIF (R33, R56, R115, R196): as for the ring commands, but the count of draws (the model's own
field, assumption 3) grows by L.N in a command that writes its destination. -/
def Obligations.SamplerFrame : Prop :=
  ∀ (i : Instr) (s t : State) (l : InFlight), ((∃ rd ms, i = .gauss rd ms) ∨ ∃ rd ms dr, i = .unif rd ms dr) →
    s.inflight = some l → exec i s = .next t →
    SameOutsideEngine s t ∧ CommandOver s t ∧ CellsKept s t i.dest (ringDegree l) ∧
      ((t.errValid = s.errValid ∧ t.err = s.err ∧
          (t.entropy.drawn = s.entropy.drawn ∨ t.entropy.drawn = s.entropy.drawn + ringDegree l)) ∨
        (t.poly = s.poly ∧ s.errValid = false ∧ t.errValid = true ∧ t.entropy.drawn = s.entropy.drawn))

/-- R222 (with R220, R223): the checks of the completion step in their order. The first that applies is the command's
error, and a failed command changes STATUS only (a held SEED write is applied, as at every completion, R115). -/
def Obligations.ChecksFailInOrder : Prop :=
  ∀ (s : State) (l : InFlight), s.inflight = some l →
    (∀ why, decode l.cmd = .illegal why → FailsWith s (engineTurn exec s) .illegalCmd) ∧
    (∀ i, decode l.cmd = .cmd i →
      (¬ RegsInRange s.params i → FailsWith s (engineTurn exec s) .badReg) ∧
      (RegsInRange s.params i → ¬ LegalDegree s.params (ringDegree l) →
        FailsWith s (engineTurn exec s) .badDegree) ∧
      (RegsInRange s.params i → LegalDegree s.params (ringDegree l) → modulus l i.modSel ≤ 0 →
        FailsWith s (engineTurn exec s) .badModulus) ∧
      (RegsInRange s.params i → LegalDegree s.params (ringDegree l) → 0 < modulus l i.modSel → ¬ RangeOrdered l i →
        FailsWith s (engineTurn exec s) .badRange))

/-- R115, R238: a command that passes its checks and has an `undef` cell among cells 0 to L.N - 1 of a source register is
the model fault read_undef (engine); POW too, even with exponent 0 (R157). -/
def Obligations.UndefOperandFaults : Prop :=
  ∀ (i : Instr) (s : State) (l : InFlight) (r k : Nat),
    s.inflight = some l → Passes s.params l i → r ∈ i.sources → k < ringDegree l → cell s r k = none →
    exec i s = .fault .readUndefEngine

/-- R196: a GAUSS or UNIF command that passes its checks takes exactly N draws, in coefficient order; a failed command
takes none, and no other command takes draws. That draws are counted by the field `entropy`, and that coefficient i is the
draw which `Config.freeDraw` gives for that field's count plus i, is the model's choice (assumption 3, DESIGN CHOICE). -/
def Obligations.SamplersTakeExactlyNDraws : Prop :=
  (∀ (i : Instr) (s t : State) (l : InFlight), s.inflight = some l → exec i s = .next t →
    (¬ Passes s.params l i → t.entropy.drawn = s.entropy.drawn) ∧
    ((∀ rd ms, i ≠ .gauss rd ms) → (∀ rd ms dr, i ≠ .unif rd ms dr) → t.entropy.drawn = s.entropy.drawn) ∧
    (Passes s.params l i → ((∃ rd ms, i = .gauss rd ms) ∨ ∃ rd ms dr, i = .unif rd ms dr) →
      t.entropy.drawn = s.entropy.drawn + ringDegree l)) ∧
  (∀ (s t : State) (l : InFlight) (rd k : Nat) (ms : ModSel), s.inflight = some l → exec (.gauss rd ms) s = .next t →
    Passes s.params l (.gauss rd ms) → k < ringDegree l →
    cell t rd k = some (center (drawGauss l.cfg.std.toNat l.cfg.gbound.toNat
      (Config.freeDraw (s.entropy.drawn + k))) (modulus l ms))) ∧
  (∀ (s t : State) (l : InFlight) (rd k : Nat) (ms : ModSel) (dr : RangeSel), s.inflight = some l →
    exec (.unif rd ms dr) s = .next t → Passes s.params l (.unif rd ms dr) → k < ringDegree l →
    cell t rd k = some (center (drawUniform (uniformRange l ms dr).1 (uniformRange l ms dr).2
      (Config.freeDraw (s.entropy.drawn + k))) (modulus l ms)))

/-- The source's centering invariant (R131 quotes it): every cell a command's completion changes holds a value centered
for the modulus the command selected. -/
def Obligations.CommandsLeaveCenteredCells : Prop :=
  ∀ (i : Instr) (s t : State) (l : InFlight), s.inflight = some l → exec i s = .next t →
    ∀ off, polyRead t.poly off ≠ polyRead s.poly off →
      ∃ v, polyRead t.poly off = some v ∧ -(modulus l i.modSel) < 2 * sext64 v ∧ 2 * sext64 v ≤ modulus l i.modSel

/-- R50, R80, R269: configuration registers written while a command is in flight do not affect it. Completing it with any
other contents of the nine registers gives the same outcome, but for those registers themselves. A sampler's two completions
are compared under the same draws (assumption 3, DESIGN CHOICE). -/
def Obligations.CompletionIgnoresLaterConfigWrites : Prop :=
  ∀ (i : Instr) (s : State) (c : ConfigRegs), s.inflight ≠ none →
    (∀ t, exec i s = .next t → exec i { s with cfg := c } = .next { t with cfg := c }) ∧
    (∀ f, exec i s = .fault f → exec i { s with cfg := c } = .fault f)

/-! ## Flags -/

/-- R37, R57, R221: the flags stand at their bits of STATUS, ERR as the code number the table of R221 gives the error. -/
def Obligations.StatusShowsItsFlags : Prop :=
  ∀ s : State,
    (bits (readReg s .status) 0 0 = 1 ↔ s.inflight ≠ none) ∧
    (bits (readReg s .status) 1 1 = 1 ↔ s.done = true) ∧
    (bits (readReg s .status) 2 2 = 1 ↔ s.errValid = true) ∧
    bits (readReg s .status) 11 8 = errNumber s.err ∧
    errNumber .noError = 0 ∧ errNumber .illegalCmd = 1 ∧ errNumber .badReg = 2 ∧ errNumber .badDegree = 3 ∧
    errNumber .badModulus = 4 ∧ errNumber .badRange = 5 ∧ errNumber .busy = 6

/-- R54: the reserved bits of CTRL, STATUS and PARAM read as 0, and a write of them is ignored (two writes that agree on
the other bits do the same); the nine configuration registers store all 64 bits. -/
def Obligations.ReservedBitsReadZero : Prop :=
  ∀ s : State, s.params.Wf →
    bits (readReg s .ctrl) 63 1 = 0 ∧ bits (readReg s .status) 7 3 = 0 ∧ bits (readReg s .status) 63 12 = 0 ∧
    bits (readReg s .param) 7 5 = 0 ∧ bits (readReg s .param) 63 13 = 0 ∧
    (∀ v w : Word, bits v 1 0 = bits w 1 0 → writeReg s v .ctrl = writeReg s w .ctrl) ∧
    (∀ v w : Word, bits v 2 1 = bits w 2 1 → writeReg s v .status = writeReg s w .status) ∧
    (∀ v : Word, writeReg s v .param = s) ∧
    (∀ (v : Word) (r : Reg), r ∈ [Reg.n, .q, .t, .scalar, .exp, .std, .gbound, .umin, .umax] →
      readReg (writeReg s v r) r = v)

/-- R225, R226, R37: a recorded error stays as it is, whatever the block does next, until the host writes STATUS with bit 2
= 1 or the block is reset. -/
def Obligations.ErrorIsKeptUntilCleared : Prop :=
  ∀ s t : State, s.errValid = true → step s = .next t →
    (t.errValid = true ∧ t.err = s.err) ∨
    (t.errValid = false ∧ t.err = .noError ∧ ((takeTurn s).1 = .rst ∨
      ∃ a v rest, s.inputs = .access a :: rest ∧ a.kind = .write v ∧
        ((a.offset = 0x018 ∧ bits v 2 2 = 1) ∨ (a.offset = 0x010 ∧ bits v 1 1 = 1))))

/-- R37, R226: a host write to STATUS is legal at any time; a 1 in bit 1 clears DONE, a 1 in bit 2 clears ERR_VALID and
sets ERR to 0, and nothing else changes, BUSY included. -/
def Obligations.StatusWriteClears : Prop :=
  ∀ (s : State) (v : Word),
    hostAccess (writeAt 0x018 v) s = .next { s with
      done := if bits v 1 1 = 1 then false else s.done
      errValid := if bits v 2 2 = 1 then false else s.errValid
      err := if bits v 2 2 = 1 then .noError else s.err
      readData := none }

/-- R53, R227, R36, R223: at every instant `irq` is CTRL.IE AND (STATUS.DONE OR STATUS.ERR_VALID), each bit as the host
reads it, and CTRL bit 0 reads IE. So after every completion step, success or failure, `irq` is high if CTRL.IE = 1, and
low if CTRL.IE = 0. -/
def Obligations.CompletionRaisesIrq : Prop :=
  (∀ s : State, irq s = true ↔
    bits (readReg s .ctrl) 0 0 = 1 ∧ (bits (readReg s .status) 1 1 = 1 ∨ bits (readReg s .status) 2 2 = 1)) ∧
  (∀ s : State, bits (readReg s .ctrl) 0 0 = 1 ↔ s.ie = true) ∧
  (∀ s t : State, s.inflight ≠ none → engineTurn exec s = .next t → irq t = s.ie)

/-! ## The host's accesses -/

/-- R114, with R40 and R224: a CMD write is accepted while L = none, and else rejected with error BUSY. Accept neither
decodes nor checks the word and leaves ERR_VALID and ERR unchanged. -/
def Obligations.CmdWriteAcceptsOrRejects : Prop :=
  ∀ (s : State) (w : Word),
    (s.inflight = none → hostAccess (writeAt 0x020 w) s =
      .next { s with cmd := w, inflight := some ⟨w, s.cfg⟩, done := false, readData := none }) ∧
    (s.inflight ≠ none → hostAccess (writeAt 0x020 w) s =
      .next { s with errValid := true, err := if s.errValid then s.err else .busy, readData := none })

/-- R41 to R49, R80: a write of a configuration register stores all 64 bits, whether or not a command is in flight, and
changes nothing else that a register shows, no cell and no in-flight record. -/
def Obligations.ConfigWriteStores : Prop :=
  ∀ (s : State) (v : Word) (r : Reg), r ∈ [Reg.n, .q, .t, .scalar, .exp, .std, .gbound, .umin, .umax] →
    ∃ t, hostAccess (writeAt (regOffset r) v) s = .next t ∧ readReg t r = v ∧
      (∀ r', r' ≠ r → readReg t r' = readReg s r') ∧ t.poly = s.poly ∧ t.inflight = s.inflight ∧
      t.heldSeed = s.heldSeed ∧ t.entropy = s.entropy ∧ t.inputs = s.inputs

/-- R38, R39 (and R55, R51: SEED reads 0): ID and PARAM are constants whose writes are ignored; PARAM shows log2(NMAX) in
bits 4:0 and R in bits 12:8, 0 elsewhere, and 0x80A in the reference configuration. -/
def Obligations.ReadOnlyRegisters : Prop :=
  ∀ (s : State) (v : Word),
    hostAccess (readAt 0x000) s = .next { s with readData := some 0x00000001524C5745 } ∧
    hostAccess (writeAt 0x000 v) s = .next { s with readData := none } ∧
    hostAccess (writeAt 0x008 v) s = .next { s with readData := none } ∧
    hostAccess (readAt 0x070) s = .next { s with readData := some 0 } ∧
    (s.params.Wf → ∃ p : Word, hostAccess (readAt 0x008) s = .next { s with readData := some p } ∧
      bits p 4 0 = s.params.log2Nmax ∧ bits p 7 5 = 0 ∧ bits p 12 8 = s.params.nreg ∧ bits p 63 13 = 0 ∧
      (s.params.log2Nmax = 10 → s.params.nreg = 8 → p = 0x80A))

/-- R51: with a pseudo-random generator a SEED write is held while a command is in flight, a later one replacing it, and
changes nothing else; with no command in flight it reseeds the generator at once. Without one a write has no effect. The
draws do not depend on SEED: whatever the generator was last seeded with and whatever write is held, a command answers a
next state that differs in the recorded seed alone. What the field `entropy` records of a seed, and that a draw is read off
its count, is the model's own choice (assumption 3, DESIGN CHOICE). -/
def Obligations.SeedWriteIsHeldWhileBusy : Prop :=
  (∀ (s : State) (v : Word), s.params.entropySource = .pseudoRandom →
    (s.inflight ≠ none → hostAccess (writeAt 0x070 v) s = .next { s with heldSeed := some v, readData := none }) ∧
    (s.inflight = none → hostAccess (writeAt 0x070 v) s =
      .next { s with entropy := ⟨some v, s.entropy.drawn⟩, readData := none })) ∧
  (∀ (s : State) (v : Word), s.params.entropySource ≠ .pseudoRandom →
    hostAccess (writeAt 0x070 v) s = .next { s with readData := none }) ∧
  (∀ (i : Instr) (s t : State) (seed held : Option Word), exec i s = .next t →
    ∃ seed', exec i { s with entropy := ⟨seed, s.entropy.drawn⟩, heldSeed := held } =
      .next { t with entropy := ⟨seed', t.entropy.drawn⟩ })

/-- R36: a write of CTRL with bit 1 = 0 sets IE to bit 0 and changes nothing else; with bit 1 = 1 it is a soft reset, and
the IE bit of that write is discarded. -/
def Obligations.CtrlWrite : Prop :=
  ∀ (s : State) (v : Word),
    (bits v 1 1 = 0 → hostAccess (writeAt 0x010 v) s =
      .next { s with ie := decide (bits v 0 0 = 1), readData := none }) ∧
    (bits v 1 1 = 1 → ∃ t, hostAccess (writeAt 0x010 v) s = .next t ∧ IsReset s t)

/-- R260, R261, R262: a hardware reset leaves the reset state whatever came before, a command in flight included; every
register of R35 then reads its reset value, and `irq` is low. -/
def Obligations.HardwareResetLeavesResetState : Prop :=
  ∀ (s : State) (rest : List Input), s.inputs = .rst :: rest →
    ∃ t, step s = .next t ∧ IsReset s t ∧ irq t = false ∧
      (∀ r, r ≠ .id → r ≠ .param → readReg t r = 0) ∧ readReg t .id = readReg s .id ∧
      readReg t .param = readReg s .param

/-- R35, R70, R71: the registers of the map stand at the offsets R35 lists, and the cells of the polynomial registers lie
in the window at multiples of 8, no two at one offset, and fill it. -/
def Obligations.CellOffsetsFillTheWindow : Prop :=
  ∀ p : Params,
    (∀ r i, r < p.nreg → i < p.nmax → cellOffset p r i = 0x1000 + 8 * (r * p.nmax + i) ∧
      IsCellOffset p (cellOffset p r i) ∧ targetOf p (cellOffset p r i) = .cell (cellOffset p r i)) ∧
    (∀ r i r' i', i < p.nmax → i' < p.nmax → cellOffset p r i = cellOffset p r' i' → r = r' ∧ i = i') ∧
    (∀ off, IsCellOffset p off → ∃ r i, r < p.nreg ∧ i < p.nmax ∧ off = cellOffset p r i) ∧
    (∀ r, targetOf p (regOffset r) = .reg r) ∧
    (regOffset .id = 0x000 ∧ regOffset .param = 0x008 ∧ regOffset .ctrl = 0x010 ∧ regOffset .status = 0x018 ∧
      regOffset .cmd = 0x020 ∧ regOffset .n = 0x028 ∧ regOffset .q = 0x030 ∧ regOffset .t = 0x038 ∧
      regOffset .scalar = 0x040 ∧ regOffset .exp = 0x048 ∧ regOffset .std = 0x050 ∧ regOffset .gbound = 0x058 ∧
      regOffset .umin = 0x060 ∧ regOffset .umax = 0x068 ∧ regOffset .seed = 0x070) ∧
    cellOffset Params.reference 1 0 = 0x3000 ∧ cellOffset Params.reference 1 1 = 0x3008 ∧
    cellOffset Params.reference 7 1023 = 0x10FF8

/-- R77: a host read of a cell is the fault poly_access_while_busy while BUSY = 1, the fault read_undef for an `undef`
cell, and else returns enc64 of the cell's integer and changes nothing else. -/
def Obligations.HostReadsCell : Prop :=
  ∀ (s : State) (r i : Nat), r < s.params.nreg → i < s.params.nmax →
    (s.inflight ≠ none → hostAccess (readAt (cellOffset s.params r i)) s = .fault .polyAccessWhileBusy) ∧
    (s.inflight = none → cell s r i = none →
      hostAccess (readAt (cellOffset s.params r i)) s = .fault .readUndefHost) ∧
    (∀ v : Int, s.inflight = none → cell s r i = some v →
      hostAccess (readAt (cellOffset s.params r i)) s = .next { s with readData := some (BitVec.ofInt 64 v) })

/-- R78: a host write of a cell is the fault poly_access_while_busy while BUSY = 1, and else stores sext_64(v), unreduced;
every other cell and every register stays. -/
def Obligations.HostWritesCell : Prop :=
  ∀ (s : State) (r i : Nat) (v : Word), r < s.params.nreg → i < s.params.nmax →
    (s.inflight ≠ none → hostAccess (writeAt (cellOffset s.params r i) v) s = .fault .polyAccessWhileBusy) ∧
    (s.inflight = none → ∃ t, hostAccess (writeAt (cellOffset s.params r i) v) s = .next t ∧
      cell t r i = some (sext64 v) ∧
      (∀ off, off ≠ cellOffset s.params r i → polyRead t.poly off = polyRead s.poly off) ∧
      t = { s with poly := t.poly, readData := none })

/-- R79: while BUSY = 1 a host access to the polynomial window, read or write, is the fault poly_access_while_busy. -/
def Obligations.CellAccessWhileBusyFaults : Prop :=
  ∀ (s : State) (off : Nat) (v : Word), s.inflight ≠ none → IsCellOffset s.params off →
    hostAccess (readAt off) s = .fault .polyAccessWhileBusy ∧
    hostAccess (writeAt off v) s = .fault .polyAccessWhileBusy

/-- R74, and the list of R72: an access is a bus error exactly if it has another width than 64 bits, is not at a multiple
of 8, does not enable all lanes, or is at an offset in 0x078 to 0xFFF or at WINDOW or above. -/
def Obligations.BusErrorsExactly : Prop :=
  ∀ (s : State) (a : Access), hostAccess a s = .fault .busError ↔
    a.width ≠ .w64 ∨ a.offset % 8 ≠ 0 ∨ a.lanes ≠ 0xFF ∨ (0x078 ≤ a.offset ∧ a.offset < 0x1000) ∨
      windowSize s.params ≤ a.offset

/-- R76, R80, R40 to R49: reads have no side effects. Only the data on the target port, which is no state of the block
(assumption 4), follows a read. A read of a register answers what that register reads as, at every time; CMD reads the last
accepted word and each configuration register what it stores, at the offsets of R35. -/
def Obligations.HostReadsHaveNoSideEffects : Prop :=
  (∀ (s t : State) (a : Access), a.kind = .read → hostAccess a s = .next t → t = { s with readData := t.readData }) ∧
  (∀ (s : State) (r : Reg), hostAccess (readAt (regOffset r)) s = .next { s with readData := some (readReg s r) }) ∧
  (∀ s : State,
    hostAccess (readAt 0x010) s = .next { s with readData := some (readReg s .ctrl) } ∧
    hostAccess (readAt 0x018) s = .next { s with readData := some (readReg s .status) } ∧
    hostAccess (readAt 0x020) s = .next { s with readData := some s.cmd } ∧
    hostAccess (readAt 0x028) s = .next { s with readData := some s.cfg.n } ∧
    hostAccess (readAt 0x030) s = .next { s with readData := some s.cfg.q } ∧
    hostAccess (readAt 0x038) s = .next { s with readData := some s.cfg.t } ∧
    hostAccess (readAt 0x040) s = .next { s with readData := some s.cfg.scalar } ∧
    hostAccess (readAt 0x048) s = .next { s with readData := some s.cfg.exp } ∧
    hostAccess (readAt 0x050) s = .next { s with readData := some s.cfg.std } ∧
    hostAccess (readAt 0x058) s = .next { s with readData := some s.cfg.gbound } ∧
    hostAccess (readAt 0x060) s = .next { s with readData := some s.cfg.umin } ∧
    hostAccess (readAt 0x068) s = .next { s with readData := some s.cfg.umax })

/-- R73: byte lane k holds bits 8k+7:8k, so the lanes in address order are the word's bytes, least significant first. -/
def Obligations.ByteLanesAreLittleEndian : Prop :=
  ∀ v : Word, v.toNat = ((List.range 8).map fun k => (byteLane v k).toNat * 256 ^ k).sum

/-! ## Assembly -/

/-- R110: a line the assembler accepts on a block with `nreg` registers is a command with a command word, and no register of
it is ≥ nreg. -/
def Obligations.AssemblerRefusesAbsentRegisters : Prop :=
  ∀ (nreg : Nat) (line : String) (i : Instr), nreg ≤ 16 → assemble nreg line = some i →
    i.wellFormed = true ∧ ∀ r ∈ i.dest :: i.sources, r < nreg

/-! ## Steps -/

/-- R115, R81: when it is the engine's turn and the word in flight decodes to a command, the step is that command's
meaning on the state with that turn taken; with no input waiting, on the state itself. That the turns stand in the list
`inputs`, and that the engine moves when none waits, is the model's choice (assumption 4, DESIGN CHOICE). -/
def Obligations.StepRunsDecodedCommand : Prop :=
  ∀ (s : State) (l : InFlight) (i : Instr), s.inflight = some l → decode l.cmd = .cmd i →
    (s.inputs = [] → step s = exec i s) ∧
    (∀ rest, s.inputs = .engine :: rest → step s = exec i { s with inputs := rest })

/-- R81, R264: a host access that comes next is performed completely in its step; with no access waiting and no command in
flight, the block is idle, and an engine turn then passes. That the accesses and the engine's turns stand in the list
`inputs`, and that an engine entry with no command in flight passes (R115 has no such step), is the model's choice
(assumption 4, DESIGN CHOICE). -/
def Obligations.StepTakesTheNextInput : Prop :=
  ∀ s : State,
    (∀ a rest, s.inputs = .access a :: rest → step s = hostAccess a { s with inputs := rest }) ∧
    (s.inflight = none → s.inputs = [] → step s = .next s) ∧
    (∀ rest, s.inflight = none → s.inputs = .engine :: rest → step s = .next { s with inputs := rest })

/-- The invariant holds after reset, for all parameters the spec admits (R261). -/
def Obligations.ResetMeetsTheInvariant : Prop :=
  State.reset.Inv ∧ ∀ p : Params, p.Wf → (State.resetOf p).Inv

/-- Every step keeps the invariant, from every state that meets it. -/
def Obligations.StepKeepsTheInvariant : Prop :=
  ∀ s t : State, s.Inv → step s = .next t → t.Inv

/-- No step is refused: the engine is run only with a command in flight (R115), and every command has a meaning. -/
def Obligations.StepNeverRefuses : Prop :=
  ∀ (s : State) (r : Refusal), step s ≠ .refused r

/-- R238: a model fault has one of the causes the table gives, and no other step faults. -/
def Obligations.FaultsHaveTheirCauses : Prop :=
  ∀ (s : State) (f : Fault), step s = .fault f →
    (∃ a rest, s.inputs = .access a :: rest ∧
      ((f = .busError ∧ (legalForm a = false ∨ targetOf s.params a.offset = .nothing)) ∨
        (f = .polyAccessWhileBusy ∧ s.inflight ≠ none ∧ targetOf s.params a.offset = .cell a.offset) ∨
        (f = .readUndefHost ∧ s.inflight = none ∧ a.kind = .read ∧ polyRead s.poly a.offset = none))) ∨
    (f = .readUndefEngine ∧ (takeTurn s).1 = .engine ∧
      ∃ l i r k, s.inflight = some l ∧ decode l.cmd = .cmd i ∧ Passes s.params l i ∧ r ∈ i.sources ∧
        k < ringDegree l ∧ cell s r k = none)

/-- R30, R37: only an accepted CMD write puts a command in flight, with the word written and the configuration of that
moment, and only the engine's completion step or a reset takes it out again. -/
def Obligations.OnlyTheseStepsChangeBusy : Prop :=
  ∀ s t : State, step s = .next t → t.inflight ≠ s.inflight →
    (s.inflight = none ∧ ∃ a w rest, s.inputs = .access a :: rest ∧ a.kind = .write w ∧ a.offset = 0x020 ∧
      t.inflight = some ⟨w, s.cfg⟩) ∨
    (t.inflight = none ∧ ((takeTurn s).1 = .engine ∨ (takeTurn s).1 = .rst ∨
      ∃ a v rest, s.inputs = .access a :: rest ∧ a.kind = .write v ∧ a.offset = 0x010 ∧ bits v 1 1 = 1))

/-- R30, R32, R82, R261: a cell changes only by a host write of that cell while BUSY = 0, by the completion of a command
that has it among cells 0 to L.N - 1 of its destination, or by a reset, which makes it `undef`. -/
def Obligations.OnlyTheseStepsChangeCells : Prop :=
  ∀ (s t : State) (off : Nat), step s = .next t → polyRead t.poly off ≠ polyRead s.poly off →
    (s.inflight = none ∧ ∃ a v rest, s.inputs = .access a :: rest ∧ a.kind = .write v ∧ a.offset = off ∧
      polyRead t.poly off = some v) ∨
    ((takeTurn s).1 = .engine ∧ ∃ l i k, s.inflight = some l ∧ decode l.cmd = .cmd i ∧ Passes s.params l i ∧
      k < ringDegree l ∧ off = cellOffset s.params i.dest k) ∨
    (t.poly = [] ∧ ((takeTurn s).1 = .rst ∨
      ∃ a v rest, s.inputs = .access a :: rest ∧ a.kind = .write v ∧ a.offset = 0x010 ∧ bits v 1 1 = 1))

/-- R274: a run ends. If no model fault stops it, then after one step for each access and one more the host has made its
last access and no command is in flight. The count of steps rests on the model's choice that the engine moves when no
input waits (assumption 4, DESIGN CHOICE). -/
def Obligations.RunsReachTheirEnd : Prop :=
  ∀ s t : State, RunsTo (s.inputs.length + 1) s t → t.AtEnd

/-- R270: no hazard between a CMD write and the STATUS reads after it, said of every step. A CMD write that is accepted
sets BUSY. From a state with BUSY = 1 or DONE = 1 every step leads to such a state again, but a STATUS write with bit 1 = 1
while BUSY = 0 and a reset, soft or hard, which the host orders itself. A STATUS read in such a state returns BUSY = 1, or
BUSY = 0 and DONE = 1; never a BUSY = 0 left over from before the write. -/
def Obligations.StatusReadAfterAcceptIsNotStale : Prop :=
  (∀ (s t : State) (w : Word) (rest : List Input), s.inflight = none → s.inputs = memWrite 0x020 w :: rest →
    step s = .next t → t.inflight ≠ none) ∧
  (∀ s t : State, (s.inflight ≠ none ∨ s.done = true) → step s = .next t →
    (t.inflight ≠ none ∨ t.done = true) ∨ (takeTurn s).1 = .rst ∨
      ∃ a v rest, s.inputs = .access a :: rest ∧ a.kind = .write v ∧
        ((s.inflight = none ∧ a.offset = 0x018 ∧ bits v 1 1 = 1) ∨ (a.offset = 0x010 ∧ bits v 1 1 = 1))) ∧
  (∀ (s : State) (rest : List Input), (s.inflight ≠ none ∨ s.done = true) → s.inputs = memRead 0x018 :: rest →
    ∃ t d, step s = .next t ∧ t.readData = some d ∧
      (bits d 0 0 = 1 ∨ (bits d 0 0 = 0 ∧ bits d 1 1 = 1)))
end

