-- ==== Sys2Proof/Laws/Bus.lean ====
section
/-! SUPPORT. The register map and the window. -/

namespace Sys2Proof.Machine

/-- The register map has each register at its offset (R35). -/
@[simp] theorem regAt_regOffset (r : Reg) : regAt (regOffset r) = some r := by cases r <;> rfl

/-- An offset at which a register stands is that register's offset. -/
theorem eq_regOffset_of_regAt {off : Nat} {r : Reg} (h : regAt off = some r) : off = regOffset r := by
  unfold regAt at h
  split at h <;> cases h <;> rfl

/-- The window fits its span (R10). -/
theorem windowSize_le_windowSpan (p : Params) : windowSize p ≤ windowSpan p := by
  have h : windowSize p - 1 < windowSpan p := Nat.lt_log2_self
  omega

/-- BASE is aligned to a multiple of the window size rounded up to a power of two (R10). -/
theorem baseAddress_aligned (p : Params) : windowSpan p ∣ baseAddress p := Nat.dvd_mul_left _ _

@[simp] theorem legalForm_readAt (off : Nat) : legalForm (readAt off) = decide (off % 8 = 0) := by
  show (decide (AccessWidth.w64 = .w64) && decide (off % 8 = 0) && decide ((0xFF : Byte) = 0xFF)) = _
  simp

@[simp] theorem legalForm_writeAt (off : Nat) (v : Word) : legalForm (writeAt off v) = decide (off % 8 = 0) := by
  show (decide (AccessWidth.w64 = .w64) && decide (off % 8 = 0) && decide ((0xFF : Byte) = 0xFF)) = _
  simp

theorem regOffset_lt (r : Reg) : regOffset r < 0x78 ∧ regOffset r % 8 = 0 := by cases r <;> simp [regOffset]

/-- A register's offset names that register (R35). -/
@[simp] theorem targetOf_regOffset (p : Params) (r : Reg) : targetOf p (regOffset r) = .reg r := by
  have := (regOffset_lt r).1
  simp [targetOf, show regOffset r < 4096 by omega]

/-- An offset of the polynomial window names the cell there (R70). -/
theorem targetOf_cell {p : Params} {off : Nat} (h : IsCellOffset p off) : targetOf p off = .cell off := by
  simp [targetOf, show ¬ off < 4096 by have := h.1; omega, h.2.1]

/-- A host read of a register (R76, R80). -/
theorem hostAccess_readReg (s : State) (r : Reg) :
    hostAccess (readAt (regOffset r)) s = .next (respond (readReg s r) s) := by
  simp only [hostAccess, legalForm_readAt, (regOffset_lt r).2, decide_true, if_true]
  simp [readAt, accessReg]

/-- A host write of a register (R76, R80). -/
theorem hostAccess_writeReg (s : State) (r : Reg) (v : Word) :
    hostAccess (writeAt (regOffset r) v) s = .next (respondNone (writeReg s v r)) := by
  simp only [hostAccess, legalForm_writeAt, (regOffset_lt r).2, decide_true, if_true]
  simp [writeAt, accessReg]

/-- A host access to a cell of the window (R77 to R79). -/
theorem hostAccess_readCell (s : State) {off : Nat} (h : IsCellOffset s.params off) :
    hostAccess (readAt off) s = accessCell s off .read := by
  simp only [hostAccess, legalForm_readAt, h.2.2, decide_true, if_true]
  simp [readAt, targetOf_cell h]

theorem hostAccess_writeCell (s : State) {off : Nat} (v : Word) (h : IsCellOffset s.params off) :
    hostAccess (writeAt off v) s = accessCell s off (.write v) := by
  simp only [hostAccess, legalForm_writeAt, h.2.2, decide_true, if_true]
  simp [writeAt, targetOf_cell h]

end Sys2Proof.Machine
end

