-- ==== Sys2Proof/Laws/Poly.lean ====
section
/-! SUPPORT. The polynomial register file: read after write, the canonical form, and the cells of a register. -/

namespace Sys2Proof.Machine

@[simp] theorem polyRead_nil (a : Nat) : polyRead [] a = none := rfl

@[simp] theorem polyRead_polyWrite_same (m : PolyFile) (a : Nat) (v : Word) :
    polyRead (polyWrite m a v) a = some v := by
  induction m with
  | nil => simp [polyWrite, polyRead]
  | cons e m ih =>
    simp only [polyWrite]
    split
    · simp [polyRead]
    · split <;> simp_all [polyRead]

theorem polyRead_polyWrite_other (m : PolyFile) {a b : Nat} (v : Word) (h : b ≠ a) :
    polyRead (polyWrite m a v) b = polyRead m b := by
  induction m with
  | nil => simp [polyWrite, polyRead, h]
  | cons e m ih =>
    simp only [polyWrite]
    split
    · simp [polyRead, h]
    · split
      · simp_all [polyRead]
      · simp [polyRead, ih]

/-- A key of a written file is the key written or an old one. -/
theorem mem_polyWrite {m : PolyFile} {a : Nat} {v : Word} {e : Nat × Word} (h : e ∈ polyWrite m a v) :
    e = (a, v) ∨ e ∈ m := by
  induction m with
  | nil => simpa [polyWrite] using h
  | cons x m ih =>
    simp only [polyWrite] at h
    split at h
    · simpa using h
    · split at h
      · rcases List.mem_cons.1 h with h | h <;> simp [h]
      · rcases List.mem_cons.1 h with h | h
        · simp [h]
        · rcases ih h with h | h <;> simp [h]

/-- A write keeps the canonical form. -/
theorem polyWrite_wf {m : PolyFile} (a : Nat) (v : Word) (h : PolyFile.Wf m) : PolyFile.Wf (polyWrite m a v) := by
  induction m with
  | nil => simp [polyWrite, PolyFile.Wf]
  | cons x m ih =>
    obtain ⟨hx, hm⟩ := List.pairwise_cons.1 h
    simp only [polyWrite]
    split
    · rename_i hlt
      refine List.pairwise_cons.2 ⟨fun y hy => ?_, h⟩
      rcases List.mem_cons.1 hy with rfl | hy
      · exact hlt
      · exact hlt.trans (hx y hy)
    · split
      · rename_i heq
        exact List.pairwise_cons.2 ⟨fun y hy => heq ▸ hx y hy, hm⟩
      · rename_i hle hne
        refine List.pairwise_cons.2 ⟨fun y hy => ?_, ih hm⟩
        rcases mem_polyWrite hy with rfl | hy
        · show x.1 < a
          omega
        · exact hx y hy

theorem writeCells_wf (p : Params) (r : Nat) (vs : List Int) :
    ∀ (i : Nat) {m : PolyFile}, PolyFile.Wf m → PolyFile.Wf (writeCells p r i vs m) := by
  induction vs with
  | nil => exact fun _ _ h => h
  | cons v vs ih => exact fun i _ h => ih (i + 1) (polyWrite_wf _ _ h)

/-- A key of a file after a register was written is one of the cells written or an old key. -/
theorem mem_writeCells {p : Params} {r : Nat} {e : Nat × Word} (vs : List Int) :
    ∀ (i : Nat) {m : PolyFile}, e ∈ writeCells p r i vs m →
      (∃ k < vs.length, e.1 = cellOffset p r (i + k)) ∨ e ∈ m := by
  induction vs with
  | nil => exact fun _ _ h => .inr h
  | cons v vs ih =>
    intro i m h
    rcases ih (i + 1) h with ⟨k, hk, he⟩ | h
    · exact .inl ⟨k + 1, by simpa using hk, by rw [he]; congr 1; omega⟩
    · rcases mem_polyWrite h with rfl | h
      · exact .inl ⟨0, by simp, rfl⟩
      · exact .inr h

/-- Writing a register leaves every offset outside the cells written alone. -/
theorem polyRead_writeCells_other {p : Params} {r off : Nat} (vs : List Int) :
    ∀ (i : Nat) {m : PolyFile}, (∀ k < vs.length, off ≠ cellOffset p r (i + k)) →
      polyRead (writeCells p r i vs m) off = polyRead m off := by
  induction vs with
  | nil => exact fun _ _ _ => rfl
  | cons v vs ih =>
    intro i m h
    have h0 := h 0 (by simp)
    rw [writeCells, ih (i + 1) fun k hk => ?_, polyRead_polyWrite_other _ _ (by simpa using h0)]
    have := h (k + 1) (by simpa using hk)
    rwa [show i + 1 + k = i + (k + 1) by omega]

/-- The offsets of two cells of one register differ. -/
theorem cellOffset_inj_index {p : Params} {r i j : Nat} (h : cellOffset p r i = cellOffset p r j) : i = j := by
  unfold cellOffset at h; omega

/-- Writing a register writes each cell with its coefficient. -/
theorem polyRead_writeCells_same {p : Params} {r : Nat} (vs : List Int) :
    ∀ (i : Nat) {m : PolyFile} (k : Nat) (hk : k < vs.length),
      polyRead (writeCells p r i vs m) (cellOffset p r (i + k)) = some (enc64 vs[k]) := by
  induction vs with
  | nil => intro _ _ k hk; simp at hk
  | cons v vs ih =>
    intro i m k hk
    cases k with
    | zero =>
      rw [writeCells, polyRead_writeCells_other]
      · simp
      · intro k _ h
        have := cellOffset_inj_index h
        omega
    | succ k =>
      have := ih (i + 1) (m := polyWrite m (cellOffset p r i) (enc64 v)) k (by simpa using hk)
      rw [writeCells, show i + (k + 1) = i + 1 + k by omega, this]
      simp

/-- Reading a register gives a list exactly when every cell holds a value, and then it is the list of those values. -/
theorem readCells_eq_some {p : Params} {m : PolyFile} {r : Nat} :
    ∀ {n i : Nat} {a : List Int}, readCells p m r i n = some a ↔
      a.length = n ∧ ∀ k < n, (polyRead m (cellOffset p r (i + k))).map sext64 = some (coeff a k) := by
  intro n
  induction n with
  | zero =>
    intro i a
    simp only [readCells, Option.some.injEq, Nat.not_lt_zero, false_imp_iff, implies_true, and_true]
    exact ⟨fun h => by simp [← h], fun h => (List.length_eq_zero_iff.1 h).symm⟩
  | succ n ih =>
    intro i a
    simp only [readCells]
    constructor
    · intro h
      split at h
      · rename_i v vs hv hvs
        obtain ⟨hl, hc⟩ := ih.1 hvs
        cases h
        refine ⟨by simp [hl], fun k hk => ?_⟩
        cases k with
        | zero => simp [hv, coeff]
        | succ k =>
          have := hc k (by omega)
          rw [show i + 1 + k = i + (k + 1) by omega] at this
          simpa [coeff] using this
      · simp at h
    · rintro ⟨hl, hc⟩
      cases a with
      | nil => simp at hl
      | cons x xs =>
        have h0 := hc 0 (by omega)
        have hs : readCells p m r (i + 1) n = some xs := ih.2 ⟨by simpa using hl, fun k hk => by
          have := hc (k + 1) (by omega)
          rw [show i + 1 + k = i + (k + 1) by omega]
          simpa [coeff] using this⟩
        rw [hs]
        obtain ⟨v, hv, hx⟩ := Option.map_eq_some_iff.1 h0
        simp only [Nat.add_zero] at hv
        simp only [hv]
        simpa [coeff] using hx

/-- Reading a register fails exactly when one of its cells is `undef`. -/
theorem readCells_eq_none {p : Params} {m : PolyFile} {r : Nat} :
    ∀ {n i : Nat}, readCells p m r i n = none ↔ ∃ k < n, polyRead m (cellOffset p r (i + k)) = none := by
  intro n
  induction n with
  | zero => simp [readCells]
  | succ n ih =>
    intro i
    simp only [readCells]
    constructor
    · intro h
      split at h
      · simp at h
      · rename_i hne
        cases h0 : polyRead m (cellOffset p r i) with
        | none => exact ⟨0, by omega, by simpa using h0⟩
        | some v =>
          cases h1 : readCells p m r (i + 1) n with
          | none =>
            obtain ⟨k, hk, h⟩ := ih.1 h1
            exact ⟨k + 1, by omega, by rwa [show i + (k + 1) = i + 1 + k by omega]⟩
          | some vs => exact absurd h1 (hne v vs h0)
    · rintro ⟨k, hk, h⟩
      cases k with
      | zero => simp only [Nat.add_zero] at h; simp [h]
      | succ k =>
        have : readCells p m r (i + 1) n = none :=
          ih.2 ⟨k, by omega, by rwa [show i + 1 + k = i + (k + 1) by omega]⟩
        simp [this]

end Sys2Proof.Machine
end

