-- ==== Sys2Proof/Laws/Ring.lean ====
section
/-! SUPPORT. The lengths of the ring operations' results, and the first facts about coefficients and degrees. -/

namespace Sys2Proof.Machine

/-- `emod` is the function of R18: v - M*floor(v/M). -/
theorem emod_eq_floor (v M : Int) (h : 0 < M) : emod v M = v - M * ⌊(v : ℚ) / (M : ℚ)⌋ := by
  obtain ⟨m, rfl⟩ := Int.eq_ofNat_of_zero_le h.le
  simp only [emod, Int.emod_def]
  have := Rat.floor_intCast_div_natCast v m
  simp_all

theorem emod_nonneg (v : Int) {M : Int} (h : 0 < M) : 0 ≤ emod v M := Int.emod_nonneg v h.ne'

theorem emod_lt (v : Int) {M : Int} (h : 0 < M) : emod v M < M := Int.emod_lt_of_pos v h

@[simp] theorem coeff_nil (i : Nat) : coeff [] i = 0 := rfl

@[simp] theorem coeff_cons_zero (x : Int) (xs : List Int) : coeff (x :: xs) 0 = x := rfl

@[simp] theorem coeff_cons_succ (x : Int) (xs : List Int) (i : Nat) : coeff (x :: xs) (i + 1) = coeff xs i := rfl

theorem coeff_of_lt {a : List Int} {i : Nat} (h : i < a.length) : coeff a i = a[i] := by
  simp [coeff, h]

theorem coeff_of_le {a : List Int} {i : Nat} (h : a.length ≤ i) : coeff a i = 0 := by
  simp [coeff, h]

theorem coeff_map_range (f : Nat → Int) {n i : Nat} (h : i < n) : coeff ((List.range n).map f) i = f i := by
  simp [coeff, h]

theorem coeff_centerAll (M : Int) (a : List Int) {i : Nat} (h : i < a.length) :
    coeff (centerAll M a) i = center (coeff a i) M := by
  simp [coeff, centerAll, h]

@[simp] theorem length_centerAll (M : Int) (a : List Int) : (centerAll M a).length = a.length := by
  simp [centerAll]

theorem length_conv (a b : List Int) : (conv a b).length = a.length + b.length - 1 := by
  simp [conv]

@[simp] theorem length_subShifted (rem den : List Int) (c : Int) (k : Nat) :
    (subShifted rem den c k).length = rem.length := by
  simp [subShifted]

@[simp] theorem length_ringred (c : List Int) (n : Nat) : (ringred c n).length = n := by
  simp [ringred]

theorem length_ringPoly {n : Nat} (h : 1 ≤ n) : (ringPoly n).length = n + 1 := by
  simp only [ringPoly, List.length_cons, List.length_append, List.length_replicate, List.length_nil]; omega

theorem length_ringAdd {M : Int} {a b : List Int} (h : a.length = b.length) :
    (ringAdd M a b).length = a.length := by
  simp [ringAdd, h]

@[simp] theorem length_ringMul (M : Int) (n : Nat) (a b : List Int) : (ringMul M n a b).length = n := by
  simp [ringMul]

@[simp] theorem length_ringScale (M k : Int) (a : List Int) : (ringScale M k a).length = a.length := by
  simp [ringScale]

theorem length_ringOne {M : Int} {n : Nat} (h : 1 ≤ n) : (ringOne M n).length = n := by
  simp only [ringOne, List.length_cons, List.length_replicate]; omega

theorem length_ringPow {M : Int} {n : Nat} (a : List Int) (e : Nat) (h : 1 ≤ n) :
    (ringPow M n a e).length = n := by
  cases e with
  | zero => exact length_ringOne h
  | succ e => exact length_ringMul _ _ _ _

@[simp] theorem length_gaussCells (M : Int) (n sigma bound : Nat) (raw : Nat → Int) :
    (gaussCells M n sigma bound raw).length = n := by
  simp [gaussCells]

@[simp] theorem length_uniformCells (M : Int) (n : Nat) (lo hi : Int) (raw : Nat → Int) :
    (uniformCells M n lo hi raw).length = n := by
  simp [uniformCells]

/-- `degSucc` bounds the nonzero coefficients. -/
theorem coeff_of_degSucc_le {a : List Int} : ∀ {i : Nat}, degSucc a ≤ i → coeff a i = 0 := by
  induction a with
  | nil => simp
  | cons x xs ih =>
    intro i h
    simp only [degSucc] at h
    split at h
    · rename_i h0
      cases i with
      | zero =>
        split at h
        · simpa
        · omega
      | succ i => simpa using ih (by omega)
    · rename_i k hk
      cases i with
      | zero => omega
      | succ i => simpa using ih (by omega)

/-- The coefficient at the degree is not 0. -/
theorem coeff_degSucc_ne_zero {a : List Int} : ∀ {k : Nat}, degSucc a = k + 1 → coeff a k ≠ 0 := by
  induction a with
  | nil => simp [degSucc]
  | cons x xs ih =>
    intro k h
    simp only [degSucc] at h
    split at h
    · split at h
      · omega
      · obtain rfl : k = 0 := by omega
        simpa
    · rename_i j hj
      obtain rfl : k = j + 1 := by omega
      simpa using ih hj

theorem degSucc_le_length (a : List Int) : degSucc a ≤ a.length := by
  induction a with
  | nil => simp [degSucc]
  | cons x xs ih =>
    simp only [degSucc, List.length_cons]
    split
    · split <;> omega
    · omega

/-- The length of both parts of a division never changes inside the loop. -/
theorem length_divLoop (den : List Int) (d : Nat) :
    ∀ (fuel : Nat) (quot rem : List Int),
      (divLoop den d fuel quot rem).1.length = quot.length ∧ (divLoop den d fuel quot rem).2.length = rem.length := by
  intro fuel
  induction fuel with
  | zero => exact fun _ _ => ⟨rfl, rfl⟩
  | succ fuel ih =>
    intro quot rem
    simp only [divLoop]
    split
    · refine ⟨(ih _ _).1.trans ?_, (ih _ _).2.trans ?_⟩ <;> simp
    · exact ⟨rfl, rfl⟩

end Sys2Proof.Machine
end

