-- ==== Sys2Proof/Laws/State.lean ====
section
/-! SUPPORT. One lemma per field per named update of the state, so that no later proof unfolds a record update. -/

namespace Sys2Proof.Machine

/-! ## Accepting a command (R114) -/

@[simp] theorem acceptCommand_params (w : Word) (s : State) : (acceptCommand w s).params = s.params := rfl
@[simp] theorem acceptCommand_ie (w : Word) (s : State) : (acceptCommand w s).ie = s.ie := rfl
@[simp] theorem acceptCommand_done (w : Word) (s : State) : (acceptCommand w s).done = false := rfl
@[simp] theorem acceptCommand_errValid (w : Word) (s : State) : (acceptCommand w s).errValid = s.errValid := rfl
@[simp] theorem acceptCommand_err (w : Word) (s : State) : (acceptCommand w s).err = s.err := rfl
@[simp] theorem acceptCommand_cmd (w : Word) (s : State) : (acceptCommand w s).cmd = w := rfl
@[simp] theorem acceptCommand_cfg (w : Word) (s : State) : (acceptCommand w s).cfg = s.cfg := rfl
@[simp] theorem acceptCommand_inflight (w : Word) (s : State) : (acceptCommand w s).inflight = some ⟨w, s.cfg⟩ := rfl
@[simp] theorem acceptCommand_heldSeed (w : Word) (s : State) : (acceptCommand w s).heldSeed = s.heldSeed := rfl
@[simp] theorem acceptCommand_poly (w : Word) (s : State) : (acceptCommand w s).poly = s.poly := rfl
@[simp] theorem acceptCommand_entropy (w : Word) (s : State) : (acceptCommand w s).entropy = s.entropy := rfl
@[simp] theorem acceptCommand_inputs (w : Word) (s : State) : (acceptCommand w s).inputs = s.inputs := rfl
@[simp] theorem acceptCommand_readData (w : Word) (s : State) : (acceptCommand w s).readData = s.readData := rfl

/-! ## Reset (R261) -/

@[simp] theorem resetBlock_params (s : State) : (resetBlock s).params = s.params := rfl
@[simp] theorem resetBlock_ie (s : State) : (resetBlock s).ie = false := rfl
@[simp] theorem resetBlock_done (s : State) : (resetBlock s).done = false := rfl
@[simp] theorem resetBlock_errValid (s : State) : (resetBlock s).errValid = false := rfl
@[simp] theorem resetBlock_err (s : State) : (resetBlock s).err = .noError := rfl
@[simp] theorem resetBlock_cmd (s : State) : (resetBlock s).cmd = 0 := rfl
@[simp] theorem resetBlock_cfg (s : State) : (resetBlock s).cfg = .zero := rfl
@[simp] theorem resetBlock_inflight (s : State) : (resetBlock s).inflight = none := rfl
@[simp] theorem resetBlock_heldSeed (s : State) : (resetBlock s).heldSeed = none := rfl
@[simp] theorem resetBlock_poly (s : State) : (resetBlock s).poly = [] := rfl
@[simp] theorem resetBlock_entropy (s : State) : (resetBlock s).entropy = ⟨none, s.entropy.drawn⟩ := rfl
@[simp] theorem resetBlock_inputs (s : State) : (resetBlock s).inputs = s.inputs := rfl
@[simp] theorem resetBlock_readData (s : State) : (resetBlock s).readData = none := rfl

/-! ## Applying a seed (R51) -/

@[simp] theorem applySeed_params (v : Word) (s : State) : (applySeed v s).params = s.params := by unfold applySeed; split <;> rfl
@[simp] theorem applySeed_ie (v : Word) (s : State) : (applySeed v s).ie = s.ie := by unfold applySeed; split <;> rfl
@[simp] theorem applySeed_done (v : Word) (s : State) : (applySeed v s).done = s.done := by unfold applySeed; split <;> rfl
@[simp] theorem applySeed_errValid (v : Word) (s : State) : (applySeed v s).errValid = s.errValid := by unfold applySeed; split <;> rfl
@[simp] theorem applySeed_err (v : Word) (s : State) : (applySeed v s).err = s.err := by unfold applySeed; split <;> rfl
@[simp] theorem applySeed_cmd (v : Word) (s : State) : (applySeed v s).cmd = s.cmd := by unfold applySeed; split <;> rfl
@[simp] theorem applySeed_cfg (v : Word) (s : State) : (applySeed v s).cfg = s.cfg := by unfold applySeed; split <;> rfl
@[simp] theorem applySeed_inflight (v : Word) (s : State) : (applySeed v s).inflight = s.inflight := by unfold applySeed; split <;> rfl
@[simp] theorem applySeed_heldSeed (v : Word) (s : State) : (applySeed v s).heldSeed = s.heldSeed := by unfold applySeed; split <;> rfl
@[simp] theorem applySeed_poly (v : Word) (s : State) : (applySeed v s).poly = s.poly := by unfold applySeed; split <;> rfl
@[simp] theorem applySeed_entropy (v : Word) (s : State) :
    (applySeed v s).entropy = if s.params.entropySource = .pseudoRandom then ⟨some v, s.entropy.drawn⟩ else s.entropy := by
  unfold applySeed; split <;> simp_all
@[simp] theorem applySeed_inputs (v : Word) (s : State) : (applySeed v s).inputs = s.inputs := by unfold applySeed; split <;> rfl
@[simp] theorem applySeed_readData (v : Word) (s : State) : (applySeed v s).readData = s.readData := by unfold applySeed; split <;> rfl

/-! ## Holding a seed (R51) -/

@[simp] theorem holdSeed_params (v : Word) (s : State) : (holdSeed v s).params = s.params := by unfold holdSeed; split <;> rfl
@[simp] theorem holdSeed_ie (v : Word) (s : State) : (holdSeed v s).ie = s.ie := by unfold holdSeed; split <;> rfl
@[simp] theorem holdSeed_done (v : Word) (s : State) : (holdSeed v s).done = s.done := by unfold holdSeed; split <;> rfl
@[simp] theorem holdSeed_errValid (v : Word) (s : State) : (holdSeed v s).errValid = s.errValid := by unfold holdSeed; split <;> rfl
@[simp] theorem holdSeed_err (v : Word) (s : State) : (holdSeed v s).err = s.err := by unfold holdSeed; split <;> rfl
@[simp] theorem holdSeed_cmd (v : Word) (s : State) : (holdSeed v s).cmd = s.cmd := by unfold holdSeed; split <;> rfl
@[simp] theorem holdSeed_cfg (v : Word) (s : State) : (holdSeed v s).cfg = s.cfg := by unfold holdSeed; split <;> rfl
@[simp] theorem holdSeed_inflight (v : Word) (s : State) : (holdSeed v s).inflight = s.inflight := by unfold holdSeed; split <;> rfl
@[simp] theorem holdSeed_heldSeed (v : Word) (s : State) :
    (holdSeed v s).heldSeed = if s.params.entropySource = .pseudoRandom then some v else s.heldSeed := by
  unfold holdSeed; split <;> simp_all
@[simp] theorem holdSeed_poly (v : Word) (s : State) : (holdSeed v s).poly = s.poly := by unfold holdSeed; split <;> rfl
@[simp] theorem holdSeed_entropy (v : Word) (s : State) : (holdSeed v s).entropy = s.entropy := by unfold holdSeed; split <;> rfl
@[simp] theorem holdSeed_inputs (v : Word) (s : State) : (holdSeed v s).inputs = s.inputs := by unfold holdSeed; split <;> rfl
@[simp] theorem holdSeed_readData (v : Word) (s : State) : (holdSeed v s).readData = s.readData := by unfold holdSeed; split <;> rfl

/-! ## Taking draws (R196) -/

@[simp] theorem takeDraws_params (n : Nat) (s : State) : (takeDraws n s).params = s.params := rfl
@[simp] theorem takeDraws_ie (n : Nat) (s : State) : (takeDraws n s).ie = s.ie := rfl
@[simp] theorem takeDraws_done (n : Nat) (s : State) : (takeDraws n s).done = s.done := rfl
@[simp] theorem takeDraws_errValid (n : Nat) (s : State) : (takeDraws n s).errValid = s.errValid := rfl
@[simp] theorem takeDraws_err (n : Nat) (s : State) : (takeDraws n s).err = s.err := rfl
@[simp] theorem takeDraws_cmd (n : Nat) (s : State) : (takeDraws n s).cmd = s.cmd := rfl
@[simp] theorem takeDraws_cfg (n : Nat) (s : State) : (takeDraws n s).cfg = s.cfg := rfl
@[simp] theorem takeDraws_inflight (n : Nat) (s : State) : (takeDraws n s).inflight = s.inflight := rfl
@[simp] theorem takeDraws_heldSeed (n : Nat) (s : State) : (takeDraws n s).heldSeed = s.heldSeed := rfl
@[simp] theorem takeDraws_poly (n : Nat) (s : State) : (takeDraws n s).poly = s.poly := rfl
@[simp] theorem takeDraws_entropy (n : Nat) (s : State) : (takeDraws n s).entropy = ⟨s.entropy.seed, s.entropy.drawn + n⟩ := rfl
@[simp] theorem takeDraws_inputs (n : Nat) (s : State) : (takeDraws n s).inputs = s.inputs := rfl
@[simp] theorem takeDraws_readData (n : Nat) (s : State) : (takeDraws n s).readData = s.readData := rfl

/-! ## The data a read returns -/

@[simp] theorem respond_params (v : Word) (s : State) : (respond v s).params = s.params := rfl
@[simp] theorem respond_ie (v : Word) (s : State) : (respond v s).ie = s.ie := rfl
@[simp] theorem respond_done (v : Word) (s : State) : (respond v s).done = s.done := rfl
@[simp] theorem respond_errValid (v : Word) (s : State) : (respond v s).errValid = s.errValid := rfl
@[simp] theorem respond_err (v : Word) (s : State) : (respond v s).err = s.err := rfl
@[simp] theorem respond_cmd (v : Word) (s : State) : (respond v s).cmd = s.cmd := rfl
@[simp] theorem respond_cfg (v : Word) (s : State) : (respond v s).cfg = s.cfg := rfl
@[simp] theorem respond_inflight (v : Word) (s : State) : (respond v s).inflight = s.inflight := rfl
@[simp] theorem respond_heldSeed (v : Word) (s : State) : (respond v s).heldSeed = s.heldSeed := rfl
@[simp] theorem respond_poly (v : Word) (s : State) : (respond v s).poly = s.poly := rfl
@[simp] theorem respond_entropy (v : Word) (s : State) : (respond v s).entropy = s.entropy := rfl
@[simp] theorem respond_inputs (v : Word) (s : State) : (respond v s).inputs = s.inputs := rfl
@[simp] theorem respond_readData (v : Word) (s : State) : (respond v s).readData = some v := rfl

/-! ## A write's empty answer -/

@[simp] theorem respondNone_params (s : State) : (respondNone s).params = s.params := rfl
@[simp] theorem respondNone_ie (s : State) : (respondNone s).ie = s.ie := rfl
@[simp] theorem respondNone_done (s : State) : (respondNone s).done = s.done := rfl
@[simp] theorem respondNone_errValid (s : State) : (respondNone s).errValid = s.errValid := rfl
@[simp] theorem respondNone_err (s : State) : (respondNone s).err = s.err := rfl
@[simp] theorem respondNone_cmd (s : State) : (respondNone s).cmd = s.cmd := rfl
@[simp] theorem respondNone_cfg (s : State) : (respondNone s).cfg = s.cfg := rfl
@[simp] theorem respondNone_inflight (s : State) : (respondNone s).inflight = s.inflight := rfl
@[simp] theorem respondNone_heldSeed (s : State) : (respondNone s).heldSeed = s.heldSeed := rfl
@[simp] theorem respondNone_poly (s : State) : (respondNone s).poly = s.poly := rfl
@[simp] theorem respondNone_entropy (s : State) : (respondNone s).entropy = s.entropy := rfl
@[simp] theorem respondNone_inputs (s : State) : (respondNone s).inputs = s.inputs := rfl
@[simp] theorem respondNone_readData (s : State) : (respondNone s).readData = none := rfl

/-! ## Recording an error (R225) -/

@[simp] theorem recordError_params (e : ErrCode) (s : State) : (recordError e s).params = s.params := by unfold recordError; split <;> rfl
@[simp] theorem recordError_ie (e : ErrCode) (s : State) : (recordError e s).ie = s.ie := by unfold recordError; split <;> rfl
@[simp] theorem recordError_done (e : ErrCode) (s : State) : (recordError e s).done = s.done := by unfold recordError; split <;> rfl
@[simp] theorem recordError_errValid (e : ErrCode) (s : State) : (recordError e s).errValid = true := by
  unfold recordError; split <;> simp_all
@[simp] theorem recordError_err (e : ErrCode) (s : State) : (recordError e s).err = if s.errValid then s.err else e := by unfold recordError; split <;> rfl
@[simp] theorem recordError_cmd (e : ErrCode) (s : State) : (recordError e s).cmd = s.cmd := by unfold recordError; split <;> rfl
@[simp] theorem recordError_cfg (e : ErrCode) (s : State) : (recordError e s).cfg = s.cfg := by unfold recordError; split <;> rfl
@[simp] theorem recordError_inflight (e : ErrCode) (s : State) : (recordError e s).inflight = s.inflight := by unfold recordError; split <;> rfl
@[simp] theorem recordError_heldSeed (e : ErrCode) (s : State) : (recordError e s).heldSeed = s.heldSeed := by unfold recordError; split <;> rfl
@[simp] theorem recordError_poly (e : ErrCode) (s : State) : (recordError e s).poly = s.poly := by unfold recordError; split <;> rfl
@[simp] theorem recordError_entropy (e : ErrCode) (s : State) : (recordError e s).entropy = s.entropy := by unfold recordError; split <;> rfl
@[simp] theorem recordError_inputs (e : ErrCode) (s : State) : (recordError e s).inputs = s.inputs := by unfold recordError; split <;> rfl
@[simp] theorem recordError_readData (e : ErrCode) (s : State) : (recordError e s).readData = s.readData := by unfold recordError; split <;> rfl

/-! ## Clearing DONE (R37) -/

@[simp] theorem clearDone_params (v : Word) (s : State) : (clearDone v s).params = s.params := by unfold clearDone; split <;> rfl
@[simp] theorem clearDone_ie (v : Word) (s : State) : (clearDone v s).ie = s.ie := by unfold clearDone; split <;> rfl
@[simp] theorem clearDone_done (v : Word) (s : State) : (clearDone v s).done = (s.done && !bit v 1) := by
  unfold clearDone; split <;> simp_all
@[simp] theorem clearDone_errValid (v : Word) (s : State) : (clearDone v s).errValid = s.errValid := by unfold clearDone; split <;> rfl
@[simp] theorem clearDone_err (v : Word) (s : State) : (clearDone v s).err = s.err := by unfold clearDone; split <;> rfl
@[simp] theorem clearDone_cmd (v : Word) (s : State) : (clearDone v s).cmd = s.cmd := by unfold clearDone; split <;> rfl
@[simp] theorem clearDone_cfg (v : Word) (s : State) : (clearDone v s).cfg = s.cfg := by unfold clearDone; split <;> rfl
@[simp] theorem clearDone_inflight (v : Word) (s : State) : (clearDone v s).inflight = s.inflight := by unfold clearDone; split <;> rfl
@[simp] theorem clearDone_heldSeed (v : Word) (s : State) : (clearDone v s).heldSeed = s.heldSeed := by unfold clearDone; split <;> rfl
@[simp] theorem clearDone_poly (v : Word) (s : State) : (clearDone v s).poly = s.poly := by unfold clearDone; split <;> rfl
@[simp] theorem clearDone_entropy (v : Word) (s : State) : (clearDone v s).entropy = s.entropy := by unfold clearDone; split <;> rfl
@[simp] theorem clearDone_inputs (v : Word) (s : State) : (clearDone v s).inputs = s.inputs := by unfold clearDone; split <;> rfl
@[simp] theorem clearDone_readData (v : Word) (s : State) : (clearDone v s).readData = s.readData := by unfold clearDone; split <;> rfl

/-! ## Clearing ERR_VALID and ERR (R37, R226) -/

@[simp] theorem clearError_params (v : Word) (s : State) : (clearError v s).params = s.params := by unfold clearError; split <;> rfl
@[simp] theorem clearError_ie (v : Word) (s : State) : (clearError v s).ie = s.ie := by unfold clearError; split <;> rfl
@[simp] theorem clearError_done (v : Word) (s : State) : (clearError v s).done = s.done := by unfold clearError; split <;> rfl
@[simp] theorem clearError_errValid (v : Word) (s : State) : (clearError v s).errValid = (s.errValid && !bit v 2) := by
  unfold clearError; split <;> simp_all
@[simp] theorem clearError_err (v : Word) (s : State) : (clearError v s).err = if bit v 2 then .noError else s.err := by unfold clearError; split <;> rfl
@[simp] theorem clearError_cmd (v : Word) (s : State) : (clearError v s).cmd = s.cmd := by unfold clearError; split <;> rfl
@[simp] theorem clearError_cfg (v : Word) (s : State) : (clearError v s).cfg = s.cfg := by unfold clearError; split <;> rfl
@[simp] theorem clearError_inflight (v : Word) (s : State) : (clearError v s).inflight = s.inflight := by unfold clearError; split <;> rfl
@[simp] theorem clearError_heldSeed (v : Word) (s : State) : (clearError v s).heldSeed = s.heldSeed := by unfold clearError; split <;> rfl
@[simp] theorem clearError_poly (v : Word) (s : State) : (clearError v s).poly = s.poly := by unfold clearError; split <;> rfl
@[simp] theorem clearError_entropy (v : Word) (s : State) : (clearError v s).entropy = s.entropy := by unfold clearError; split <;> rfl
@[simp] theorem clearError_inputs (v : Word) (s : State) : (clearError v s).inputs = s.inputs := by unfold clearError; split <;> rfl
@[simp] theorem clearError_readData (v : Word) (s : State) : (clearError v s).readData = s.readData := by unfold clearError; split <;> rfl

/-! ## Applying a held seed (R51) -/

@[simp] theorem applyHeldSeed_params (s : State) : (applyHeldSeed s).params = s.params := by unfold applyHeldSeed; split <;> simp
@[simp] theorem applyHeldSeed_ie (s : State) : (applyHeldSeed s).ie = s.ie := by unfold applyHeldSeed; split <;> simp
@[simp] theorem applyHeldSeed_done (s : State) : (applyHeldSeed s).done = s.done := by unfold applyHeldSeed; split <;> simp
@[simp] theorem applyHeldSeed_errValid (s : State) : (applyHeldSeed s).errValid = s.errValid := by unfold applyHeldSeed; split <;> simp
@[simp] theorem applyHeldSeed_err (s : State) : (applyHeldSeed s).err = s.err := by unfold applyHeldSeed; split <;> simp
@[simp] theorem applyHeldSeed_cmd (s : State) : (applyHeldSeed s).cmd = s.cmd := by unfold applyHeldSeed; split <;> simp
@[simp] theorem applyHeldSeed_cfg (s : State) : (applyHeldSeed s).cfg = s.cfg := by unfold applyHeldSeed; split <;> simp
@[simp] theorem applyHeldSeed_inflight (s : State) : (applyHeldSeed s).inflight = s.inflight := by unfold applyHeldSeed; split <;> simp
@[simp] theorem applyHeldSeed_heldSeed (s : State) : (applyHeldSeed s).heldSeed = none := by
  unfold applyHeldSeed; split <;> simp_all
@[simp] theorem applyHeldSeed_poly (s : State) : (applyHeldSeed s).poly = s.poly := by unfold applyHeldSeed; split <;> simp
@[simp] theorem applyHeldSeed_entropy (s : State) :
    (applyHeldSeed s).entropy =
      ⟨if s.params.entropySource = .pseudoRandom then s.heldSeed.or s.entropy.seed else s.entropy.seed, s.entropy.drawn⟩ := by
  unfold applyHeldSeed; split <;> simp_all; split <;> rfl
@[simp] theorem applyHeldSeed_inputs (s : State) : (applyHeldSeed s).inputs = s.inputs := by unfold applyHeldSeed; split <;> simp
@[simp] theorem applyHeldSeed_readData (s : State) : (applyHeldSeed s).readData = s.readData := by unfold applyHeldSeed; split <;> simp

/-! ## The end of a completion step (R115, R223) -/

@[simp] theorem finishCommand_params (s : State) : (finishCommand s).params = s.params := by simp [finishCommand]
@[simp] theorem finishCommand_ie (s : State) : (finishCommand s).ie = s.ie := by simp [finishCommand]
@[simp] theorem finishCommand_done (s : State) : (finishCommand s).done = true := by simp [finishCommand]
@[simp] theorem finishCommand_errValid (s : State) : (finishCommand s).errValid = s.errValid := by simp [finishCommand]
@[simp] theorem finishCommand_err (s : State) : (finishCommand s).err = s.err := by simp [finishCommand]
@[simp] theorem finishCommand_cmd (s : State) : (finishCommand s).cmd = s.cmd := by simp [finishCommand]
@[simp] theorem finishCommand_cfg (s : State) : (finishCommand s).cfg = s.cfg := by simp [finishCommand]
@[simp] theorem finishCommand_inflight (s : State) : (finishCommand s).inflight = none := by simp [finishCommand]
@[simp] theorem finishCommand_heldSeed (s : State) : (finishCommand s).heldSeed = none := by simp [finishCommand]
@[simp] theorem finishCommand_poly (s : State) : (finishCommand s).poly = s.poly := by simp [finishCommand]
@[simp] theorem finishCommand_entropy (s : State) :
    (finishCommand s).entropy =
      ⟨if s.params.entropySource = .pseudoRandom then s.heldSeed.or s.entropy.seed else s.entropy.seed, s.entropy.drawn⟩ := by simp [finishCommand]
@[simp] theorem finishCommand_inputs (s : State) : (finishCommand s).inputs = s.inputs := by simp [finishCommand]
@[simp] theorem finishCommand_readData (s : State) : (finishCommand s).readData = s.readData := by simp [finishCommand]

/-! ## A failed command (R220, R223) -/

@[simp] theorem failCommand_params (e : ErrCode) (s : State) : (failCommand e s).params = s.params := by simp [failCommand]
@[simp] theorem failCommand_ie (e : ErrCode) (s : State) : (failCommand e s).ie = s.ie := by simp [failCommand]
@[simp] theorem failCommand_done (e : ErrCode) (s : State) : (failCommand e s).done = true := by simp [failCommand]
@[simp] theorem failCommand_errValid (e : ErrCode) (s : State) : (failCommand e s).errValid = true := by simp [failCommand]
@[simp] theorem failCommand_err (e : ErrCode) (s : State) : (failCommand e s).err = if s.errValid then s.err else e := by simp [failCommand]
@[simp] theorem failCommand_cmd (e : ErrCode) (s : State) : (failCommand e s).cmd = s.cmd := by simp [failCommand]
@[simp] theorem failCommand_cfg (e : ErrCode) (s : State) : (failCommand e s).cfg = s.cfg := by simp [failCommand]
@[simp] theorem failCommand_inflight (e : ErrCode) (s : State) : (failCommand e s).inflight = none := by simp [failCommand]
@[simp] theorem failCommand_heldSeed (e : ErrCode) (s : State) : (failCommand e s).heldSeed = none := by simp [failCommand]
@[simp] theorem failCommand_poly (e : ErrCode) (s : State) : (failCommand e s).poly = s.poly := by simp [failCommand]
@[simp] theorem failCommand_entropy (e : ErrCode) (s : State) :
    (failCommand e s).entropy =
      ⟨if s.params.entropySource = .pseudoRandom then s.heldSeed.or s.entropy.seed else s.entropy.seed, s.entropy.drawn⟩ := by simp [failCommand]
@[simp] theorem failCommand_inputs (e : ErrCode) (s : State) : (failCommand e s).inputs = s.inputs := by simp [failCommand]
@[simp] theorem failCommand_readData (e : ErrCode) (s : State) : (failCommand e s).readData = s.readData := by simp [failCommand]

/-! ## A completed command (R115) -/

@[simp] theorem completeCommand_params (rd : Nat) (result : List Int) (s : State) : (completeCommand rd result s).params = s.params := by simp [completeCommand]
@[simp] theorem completeCommand_ie (rd : Nat) (result : List Int) (s : State) : (completeCommand rd result s).ie = s.ie := by simp [completeCommand]
@[simp] theorem completeCommand_done (rd : Nat) (result : List Int) (s : State) : (completeCommand rd result s).done = true := by simp [completeCommand]
@[simp] theorem completeCommand_errValid (rd : Nat) (result : List Int) (s : State) : (completeCommand rd result s).errValid = s.errValid := by simp [completeCommand]
@[simp] theorem completeCommand_err (rd : Nat) (result : List Int) (s : State) : (completeCommand rd result s).err = s.err := by simp [completeCommand]
@[simp] theorem completeCommand_cmd (rd : Nat) (result : List Int) (s : State) : (completeCommand rd result s).cmd = s.cmd := by simp [completeCommand]
@[simp] theorem completeCommand_cfg (rd : Nat) (result : List Int) (s : State) : (completeCommand rd result s).cfg = s.cfg := by simp [completeCommand]
@[simp] theorem completeCommand_inflight (rd : Nat) (result : List Int) (s : State) : (completeCommand rd result s).inflight = none := by simp [completeCommand]
@[simp] theorem completeCommand_heldSeed (rd : Nat) (result : List Int) (s : State) : (completeCommand rd result s).heldSeed = none := by simp [completeCommand]
@[simp] theorem completeCommand_poly (rd : Nat) (result : List Int) (s : State) : (completeCommand rd result s).poly = writeCells s.params rd 0 result s.poly := by simp [completeCommand]
@[simp] theorem completeCommand_entropy (rd : Nat) (result : List Int) (s : State) :
    (completeCommand rd result s).entropy =
      ⟨if s.params.entropySource = .pseudoRandom then s.heldSeed.or s.entropy.seed else s.entropy.seed, s.entropy.drawn⟩ := by simp [completeCommand]
@[simp] theorem completeCommand_inputs (rd : Nat) (result : List Int) (s : State) : (completeCommand rd result s).inputs = s.inputs := by simp [completeCommand]
@[simp] theorem completeCommand_readData (rd : Nat) (result : List Int) (s : State) : (completeCommand rd result s).readData = s.readData := by simp [completeCommand]

end Sys2Proof.Machine
end

