-- ==== Sys2Proof/Laws/Exec.lean ====
section
/-! SUPPORT. What the shared operations, a command and a step can do, each said once as an inversion lemma. -/

namespace Sys2Proof.Machine

/-- The checks pass exactly when every condition of R222 does. -/
theorem check_eq_noError {p : Params} {l : InFlight} {used : List Nat} {ms : ModSel} {range : Option RangeSel} :
    check p l used ms range = .noError ↔
      (∀ r ∈ used, r < p.nreg) ∧ badDegree p l.cfg.n = false ∧ 0 < modulus l ms ∧
        (range = some .bounds → sext64 l.cfg.umin ≤ sext64 l.cfg.umax) := by
  unfold check
  split
  · rename_i h
    obtain ⟨r, hr, hle⟩ := List.any_eq_true.1 h
    refine ⟨fun h => by simp at h, fun h => ?_⟩
    have := h.1 r hr
    simp at hle
    omega
  · rename_i h
    have hu : ∀ r ∈ used, r < p.nreg := fun r hr => by
      have := mt (fun hle => List.any_eq_true.2 ⟨r, hr, hle⟩) h
      simpa using this
    split
    · rename_i hd; simp [hd]
    · rename_i hd
      split
      · rename_i hm
        exact ⟨fun h => by simp at h, fun h => by omega⟩
      · rename_i hm
        split
        · rename_i hr
          exact ⟨fun h => by simp at h, fun h => absurd (h.2.2.2 hr.1) (by omega)⟩
        · rename_i hr
          refine ⟨fun _ => ⟨hu, by simpa using hd, by omega, fun h => ?_⟩, fun _ => rfl⟩
          exact not_lt.1 fun hlt => hr ⟨h, hlt⟩

/-- A legal ring degree is at least 1 and at most NMAX. -/
theorem badDegree_bounds {p : Params} {n : Word} (h : badDegree p n = false) : 1 ≤ n.toNat ∧ n.toNat ≤ p.nmax := by
  simp only [badDegree, Bool.or_eq_false_iff, decide_eq_false_iff_not, not_lt] at h
  refine ⟨Nat.one_le_iff_ne_zero.2 fun h0 => ?_, h.1.2⟩
  have : n = 0 := BitVec.eq_of_toNat_eq (by simpa using h0)
  simp [this] at h

/-- What `withChecks` answers: a refusal without a command in flight, the failure of the command, or its continuation. -/
theorem withChecks_cases (s : State) (used : List Nat) (ms : ModSel) (range : Option RangeSel)
    (k : InFlight → Host.Outcome State Fault Refusal) :
    (s.inflight = none ∧ withChecks s used ms range k = .refused .noCommandInFlight) ∨
      ∃ l, s.inflight = some l ∧
        ((check s.params l used ms range ≠ .noError ∧
            withChecks s used ms range k = .next (failCommand (check s.params l used ms range) s)) ∨
          (check s.params l used ms range = .noError ∧ withChecks s used ms range k = k l)) := by
  unfold withChecks
  cases s.inflight with
  | none => exact .inl ⟨rfl, rfl⟩
  | some l =>
    refine .inr ⟨l, rfl, ?_⟩
    dsimp only
    generalize check s.params l used ms range = e
    cases e <;> simp

/-- What `withOperand` answers: a fault on an `undef` cell, or its continuation on the register's integers. -/
theorem withOperand_cases (s : State) (l : InFlight) (r : Nat) (k : List Int → Host.Outcome State Fault Refusal) :
    (readCells s.params s.poly r 0 (ringDegree l) = none ∧ withOperand s l r k = .fault .readUndefEngine) ∨
      ∃ a, readCells s.params s.poly r 0 (ringDegree l) = some a ∧ withOperand s l r k = k a := by
  unfold withOperand
  cases readCells s.params s.poly r 0 (ringDegree l) with
  | none => exact .inl ⟨rfl, rfl⟩
  | some a => exact .inr ⟨a, rfl, rfl⟩

/-- A continuation behind the checks that answers `next t` failed a check, or passed them all. -/
theorem withChecks_next {s t : State} {used : List Nat} {ms : ModSel} {range : Option RangeSel}
    {k : InFlight → Host.Outcome State Fault Refusal} (h : withChecks s used ms range k = .next t) :
    ∃ l, s.inflight = some l ∧
      ((∃ e, e ≠ .noError ∧ t = failCommand e s) ∨
        (check s.params l used ms range = .noError ∧ k l = .next t)) := by
  rcases withChecks_cases s used ms range k with ⟨_, h'⟩ | ⟨l, hl, ⟨hc, h'⟩ | ⟨hc, h'⟩⟩
  · rw [h'] at h; cases h
  · rw [h'] at h; cases h; exact ⟨l, hl, .inl ⟨_, hc, rfl⟩⟩
  · exact ⟨l, hl, .inr ⟨hc, h' ▸ h⟩⟩

/-- A continuation behind an operand that answers `next t` read the register whole. -/
theorem withOperand_next {s t : State} {l : InFlight} {r : Nat} {k : List Int → Host.Outcome State Fault Refusal}
    (h : withOperand s l r k = .next t) :
    ∃ a, readCells s.params s.poly r 0 (ringDegree l) = some a ∧ a.length = ringDegree l ∧ k a = .next t := by
  rcases withOperand_cases s l r k with ⟨_, h'⟩ | ⟨a, ha, h'⟩
  · rw [h'] at h; cases h
  · exact ⟨a, ha, (readCells_eq_some.1 ha).1, h' ▸ h⟩

/-- Everything a command that answers a next state can have done: it failed with an error and wrote no cell, or it
passed its checks and wrote L.N cells of its destination. -/
theorem exec_next_cases {i : Instr} {s t : State} (h : exec i s = .next t) :
    ∃ l, s.inflight = some l ∧
      ((∃ e, e ≠ .noError ∧ t = failCommand e s) ∨
        (i.dest < s.params.nreg ∧ 1 ≤ ringDegree l ∧ ringDegree l ≤ s.params.nmax ∧ 0 < modulus l i.modSel ∧
          ∃ (result : List Int) (draws : Nat), result.length = ringDegree l ∧
            t = completeCommand i.dest result (takeDraws draws s))) := by
  have wrap {used : List Nat} {ms : ModSel} {range : Option RangeSel} {l : InFlight} {d : Nat} (hd : d ∈ used)
      (hc : check s.params l used ms range = .noError) :
      d < s.params.nreg ∧ 1 ≤ ringDegree l ∧ ringDegree l ≤ s.params.nmax ∧ 0 < modulus l ms := by
    obtain ⟨hu, hb, hm, _⟩ := check_eq_noError.1 hc
    exact ⟨hu d hd, (badDegree_bounds hb).1, (badDegree_bounds hb).2, hm⟩
  cases i with
  | center rd rs1 ms =>
    obtain ⟨l, hl, hf | ⟨hc, hk⟩⟩ := withChecks_next h
    · exact ⟨l, hl, .inl hf⟩
    obtain ⟨a, -, hlen, hk⟩ := withOperand_next hk
    obtain ⟨h1, h2, h3, h4⟩ := wrap (d := rd) (by simp) hc
    cases hk
    exact ⟨l, hl, .inr ⟨h1, h2, h3, h4, _, 0, by simp [hlen], rfl⟩⟩
  | add rd rs1 rs2 ms =>
    obtain ⟨l, hl, hf | ⟨hc, hk⟩⟩ := withChecks_next h
    · exact ⟨l, hl, .inl hf⟩
    obtain ⟨a, -, hlen, hk⟩ := withOperand_next hk
    obtain ⟨b, -, hlen', hk⟩ := withOperand_next hk
    obtain ⟨h1, h2, h3, h4⟩ := wrap (d := rd) (by simp) hc
    cases hk
    exact ⟨l, hl, .inr ⟨h1, h2, h3, h4, _, 0, by rw [length_ringAdd (hlen.trans hlen'.symm), hlen], rfl⟩⟩
  | mul rd rs1 rs2 ms =>
    obtain ⟨l, hl, hf | ⟨hc, hk⟩⟩ := withChecks_next h
    · exact ⟨l, hl, .inl hf⟩
    obtain ⟨a, -, -, hk⟩ := withOperand_next hk
    obtain ⟨b, -, -, hk⟩ := withOperand_next hk
    obtain ⟨h1, h2, h3, h4⟩ := wrap (d := rd) (by simp) hc
    cases hk
    exact ⟨l, hl, .inr ⟨h1, h2, h3, h4, _, 0, by simp, rfl⟩⟩
  | smul rd rs1 ms =>
    obtain ⟨l, hl, hf | ⟨hc, hk⟩⟩ := withChecks_next h
    · exact ⟨l, hl, .inl hf⟩
    obtain ⟨a, -, hlen, hk⟩ := withOperand_next hk
    obtain ⟨h1, h2, h3, h4⟩ := wrap (d := rd) (by simp) hc
    cases hk
    exact ⟨l, hl, .inr ⟨h1, h2, h3, h4, _, 0, by simp [hlen], rfl⟩⟩
  | pow rd rs1 ms =>
    obtain ⟨l, hl, hf | ⟨hc, hk⟩⟩ := withChecks_next h
    · exact ⟨l, hl, .inl hf⟩
    obtain ⟨a, -, -, hk⟩ := withOperand_next hk
    obtain ⟨h1, h2, h3, h4⟩ := wrap (d := rd) (by simp) hc
    cases hk
    exact ⟨l, hl, .inr ⟨h1, h2, h3, h4, _, 0, length_ringPow _ _ h2, rfl⟩⟩
  | gauss rd ms =>
    obtain ⟨l, hl, hf | ⟨hc, hk⟩⟩ := withChecks_next h
    · exact ⟨l, hl, .inl hf⟩
    obtain ⟨h1, h2, h3, h4⟩ := wrap (d := rd) (by simp) hc
    cases hk
    exact ⟨l, hl, .inr ⟨h1, h2, h3, h4, _, ringDegree l, by simp, rfl⟩⟩
  | unif rd ms dr =>
    obtain ⟨l, hl, hf | ⟨hc, hk⟩⟩ := withChecks_next h
    · exact ⟨l, hl, .inl hf⟩
    obtain ⟨h1, h2, h3, h4⟩ := wrap (d := rd) (by simp) hc
    cases hk
    exact ⟨l, hl, .inr ⟨h1, h2, h3, h4, _, ringDegree l, by simp, rfl⟩⟩

/-- What a host access that answers a next state can have done: a register read or written, or, with no command in
flight, a cell of the polynomial window read or written. -/
theorem hostAccess_next_cases {a : Access} {s t : State} (h : hostAccess a s = .next t) :
    legalForm a = true ∧
      ((∃ r, targetOf s.params a.offset = .reg r ∧
          ((a.kind = .read ∧ t = respond (readReg s r) s) ∨
            ∃ v, a.kind = .write v ∧ t = respondNone (writeReg s v r))) ∨
        (s.inflight = none ∧ ∃ off, targetOf s.params a.offset = .cell off ∧
          ((∃ v, a.kind = .read ∧ polyRead s.poly off = some v ∧ t = respond v s) ∨
            ∃ v, a.kind = .write v ∧ t = respondNone { s with poly := polyWrite s.poly off v }))) := by
  unfold hostAccess at h
  split at h
  · rename_i hf
    refine ⟨hf, ?_⟩
    split at h
    · rename_i r hr
      refine .inl ⟨r, hr, ?_⟩
      cases hk : a.kind with
      | read => rw [hk] at h; cases h; exact .inl ⟨rfl, rfl⟩
      | write v => rw [hk] at h; cases h; exact .inr ⟨v, rfl, rfl⟩
    · rename_i off hoff
      unfold accessCell at h
      split at h
      · cases h
      · rename_i hb
        refine .inr ⟨by simpa [busy] using hb, off, hoff, ?_⟩
        cases hk : a.kind with
        | read =>
          rw [hk] at h
          dsimp only at h
          split at h
          · rename_i v hv
            cases h
            exact .inl ⟨v, rfl, hv, rfl⟩
          · cases h
        | write v => rw [hk] at h; cases h; exact .inr ⟨v, rfl, rfl⟩
    · cases h
  · cases h

/-- What the engine's turn that answers a next state can have done. -/
theorem engineTurn_next_cases {s t : State} (h : engineTurn exec s = .next t) :
    (s.inflight = none ∧ t = s) ∨
      ∃ l, s.inflight = some l ∧
        ((∃ i, decode l.cmd = .cmd i ∧ exec i s = .next t) ∨
          ∃ why, decode l.cmd = .illegal why ∧ t = failCommand .illegalCmd s) := by
  unfold engineTurn at h
  split at h
  · rename_i hn; cases h; exact .inl ⟨hn, rfl⟩
  · rename_i l hl
    refine .inr ⟨l, hl, ?_⟩
    split at h
    · rename_i i hi; exact .inl ⟨i, hi, h⟩
    · rename_i why hw; cases h; exact .inr ⟨why, hw, rfl⟩

/-- What a step that answers a next state can have been: the engine's turn, a host access, or a hardware reset. -/
theorem step_next_cases {s t : State} (h : step s = .next t) :
    ((takeTurn s).1 = .engine ∧ engineTurn exec (takeTurn s).2 = .next t) ∨
      (∃ a, (takeTurn s).1 = .host a ∧ hostAccess a (takeTurn s).2 = .next t) ∨
        ((takeTurn s).1 = .rst ∧ t = resetBlock (takeTurn s).2) := by
  unfold step at h
  split at h
  · rename_i s' hs; exact .inl ⟨by simp [hs], by simpa [hs] using h⟩
  · rename_i a s' hs; exact .inr (.inl ⟨a, by simp [hs], by simpa [hs] using h⟩)
  · rename_i s' hs; cases h; exact .inr (.inr ⟨by simp [hs], by simp [hs]⟩)

/-- Taking the next input changes nothing but the inputs that wait. -/
theorem takeTurn_snd (s : State) : (takeTurn s).2 = { s with inputs := s.inputs.tail } := by
  unfold takeTurn
  split
  · rename_i h; cases s; simp_all
  all_goals rename_i h; simp [h]

end Sys2Proof.Machine
end

