-- ==== Sys2Proof/Laws/Checks.lean ====
section
/-! SUPPORT. The checks of R222 in the terms of Safety.lean. -/

namespace Sys2Proof.Machine

/-- R41: the degree check passes exactly for a power of two in [1, NMAX]. -/
theorem badDegree_eq_false_iff (p : Params) (n : Word) : badDegree p n = false ↔ LegalDegree p n.toNat := by
  simp only [badDegree, LegalDegree, Params.nmax, Bool.or_eq_false_iff, beq_eq_false_iff_ne,
    bne_eq_false_iff_eq]
  have hand : n ≠ 0 → (n &&& (n - 1) = 0 ↔ n.toNat.isPowerOfTwo) := fun h0 => by
    have hn : n.toNat ≠ 0 := fun h => h0 (BitVec.eq_of_toNat_eq (by simpa using h))
    rw [← Nat.and_sub_one_eq_zero_iff_isPowerOfTwo hn, ← BitVec.toNat_inj, BitVec.toNat_and]
    have : (n - 1).toNat = n.toNat - 1 := by
      have := n.isLt
      rw [BitVec.toNat_sub]
      simp only [BitVec.ofNat_eq_ofNat, BitVec.toNat_ofNat]
      omega
    rw [this]
    rfl
  constructor
  · rintro ⟨⟨h0, hle⟩, ha⟩
    obtain ⟨k, hk⟩ := (hand h0).1 ha
    have hle' : 2 ^ k ≤ 2 ^ p.log2Nmax := by simpa [hk] using hle
    exact ⟨k, (Nat.pow_le_pow_iff_right (by decide)).1 hle', hk⟩
  · rintro ⟨k, hk, he⟩
    have h0 : n ≠ 0 := fun h => by
      have : 0 < 2 ^ k := by positivity
      simp [h] at he
      omega
    have hle : 2 ^ k ≤ 2 ^ p.log2Nmax := Nat.pow_le_pow_right (by decide) hk
    exact ⟨⟨h0, by simpa [he] using hle⟩, (hand h0).2 ⟨k, he⟩⟩

/-- What `check` is given for the range of a command. -/
def rangeOf : Instr → Option RangeSel
  | .unif _ _ dr => some dr
  | _ => none

/-- A command passes its checks exactly if it meets the conditions of R222. -/
theorem check_eq_noError_iff_passes (p : Params) (l : InFlight) (i : Instr) :
    check p l (i.dest :: i.sources) i.modSel (rangeOf i) = .noError ↔ Passes p l i := by
  rw [check_eq_noError, badDegree_eq_false_iff]
  have : (rangeOf i = some .bounds → sext64 l.cfg.umin ≤ sext64 l.cfg.umax) ↔ RangeOrdered l i := by
    unfold RangeOrdered
    cases i <;> simp [rangeOf]
  rw [this]
  rfl

/-- `HoldsPoly` says that the operand read succeeds. -/
theorem readCells_eq_some_iff_holds {s : State} {r n : Nat} {a : List Int} :
    readCells s.params s.poly r 0 n = some a ↔ HoldsPoly s r n a := by
  simp [readCells_eq_some, HoldsPoly, cell]

end Sys2Proof.Machine
end

