-- ==== Sys2Proof/Laws/Operands.lean ====
section
/-! SUPPORT. Reading a pattern as an integer and writing it back, and the bounds of a modulus. -/

namespace Sys2Proof.Machine

/-- An integer that fits a cell is read back as written (R11, R17). -/
theorem sext64_enc64 {v : Int} (h1 : -2 ^ 63 ≤ v) (h2 : v < 2 ^ 63) : sext64 (enc64 v) = v := by
  simp only [sext64, enc64, BitVec.toInt_ofInt]
  rw [Int.bmod_eq_of_le] <;> omega

/-- A pattern is the encoding of the integer it is read as. -/
@[simp] theorem enc64_sext64 (v : Word) : enc64 (sext64 v) = v := by simp [enc64, sext64]

/-- A modulus is below 2^63 (R42). -/
theorem modulus_lt (l : InFlight) (ms : ModSel) : modulus l ms < 2 ^ 63 := by
  cases ms
  · have := BitVec.toInt_lt (x := l.cfg.q)
    simp only [modulus, sext64]
    omega
  · have := BitVec.toInt_lt (x := l.cfg.t)
    simp only [modulus, sext64]
    omega

/-- The standard deviation (R46), a number of units of 2^-32, is 0 exactly when STD = 0. -/
theorem sigma_eq_zero_iff (l : InFlight) : (sigmaUnits l : ℚ) / 2 ^ 32 = 0 ↔ l.cfg.std = 0 := by
  rw [div_eq_zero_iff]
  have h : (sigmaUnits l : ℚ) = 0 ↔ l.cfg.std = 0 := by
    rw [Nat.cast_eq_zero, sigmaUnits, zext64, ← BitVec.toNat_inj]
    rfl
  simpa using h

end Sys2Proof.Machine
end

