-- ==== Sys2Proof/Laws/PerInstr.lean ====
section
/-! SUPPORT. What every command's word has in common, one lemma per constructor. -/

namespace Sys2Proof.Laws.WordFields

/-- The opcode of a command (R102). -/
def opcode : Instr → Nat
  | .center _ _ _ => 1
  | .add _ _ _ _ => 2
  | .mul _ _ _ _ => 3
  | .smul _ _ _ => 4
  | .pow _ _ _ => 5
  | .gauss _ _ => 6
  | .unif _ _ _ => 7

/-- The word of a well-formed command has its reserved bits 0 (R100), its opcode in bits 3:0 and its destination in bits
7:4 (R101). -/
def Statement (i : Instr) : Prop :=
  i.wellFormed = true →
    bits (encode i) 63 18 = 0 ∧ bits (encode i) 3 0 = opcode i ∧ bits (encode i) 7 4 = i.dest

theorem modSelBit_le (ms : ModSel) : modSelBit ms ≤ 1 := by cases ms <;> simp [modSelBit]

theorem rangeSelBit_le (dr : RangeSel) : rangeSelBit dr ≤ 1 := by cases dr <;> simp [rangeSelBit]

/-- The fields of a packed word, for field values that fit. -/
theorem packFields_bits {op rd rs1 rs2 ms dr : Nat} (h0 : op < 16) (h1 : rd < 16) (h2 : rs1 < 16) (h3 : rs2 < 16)
    (h4 : ms ≤ 1) (h5 : dr ≤ 1) :
    bits (packFields op rd rs1 rs2 ms dr) 63 18 = 0 ∧ bits (packFields op rd rs1 rs2 ms dr) 3 0 = op ∧
      bits (packFields op rd rs1 rs2 ms dr) 7 4 = rd := by
  simp only [bits, packFields, BitVec.toNat_ofNat]
  omega

theorem center (rd rs1 : Nat) (ms : ModSel) : Statement (.center rd rs1 ms) := fun h => by
  simp only [Instr.wellFormed, regFits, Bool.and_eq_true, decide_eq_true_eq] at h
  exact packFields_bits (by decide) h.1 h.2 (by decide) (modSelBit_le ms) (by decide)

theorem add (rd rs1 rs2 : Nat) (ms : ModSel) : Statement (.add rd rs1 rs2 ms) := fun h => by
  simp only [Instr.wellFormed, regFits, Bool.and_eq_true, decide_eq_true_eq] at h
  exact packFields_bits (by decide) h.1.1 h.1.2 h.2 (modSelBit_le ms) (by decide)

theorem mul (rd rs1 rs2 : Nat) (ms : ModSel) : Statement (.mul rd rs1 rs2 ms) := fun h => by
  simp only [Instr.wellFormed, regFits, Bool.and_eq_true, decide_eq_true_eq] at h
  exact packFields_bits (by decide) h.1.1 h.1.2 h.2 (modSelBit_le ms) (by decide)

theorem smul (rd rs1 : Nat) (ms : ModSel) : Statement (.smul rd rs1 ms) := fun h => by
  simp only [Instr.wellFormed, regFits, Bool.and_eq_true, decide_eq_true_eq] at h
  exact packFields_bits (by decide) h.1 h.2 (by decide) (modSelBit_le ms) (by decide)

theorem pow (rd rs1 : Nat) (ms : ModSel) : Statement (.pow rd rs1 ms) := fun h => by
  simp only [Instr.wellFormed, regFits, Bool.and_eq_true, decide_eq_true_eq] at h
  exact packFields_bits (by decide) h.1 h.2 (by decide) (modSelBit_le ms) (by decide)

theorem gauss (rd : Nat) (ms : ModSel) : Statement (.gauss rd ms) := fun h => by
  simp only [Instr.wellFormed, regFits, decide_eq_true_eq] at h
  exact packFields_bits (by decide) h (by decide) (by decide) (modSelBit_le ms) (by decide)

theorem unif (rd : Nat) (ms : ModSel) (dr : RangeSel) : Statement (.unif rd ms dr) := fun h => by
  simp only [Instr.wellFormed, regFits, decide_eq_true_eq] at h
  exact packFields_bits (by decide) h (by decide) (by decide) (modSelBit_le ms) (rangeSelBit_le dr)

end Sys2Proof.Laws.WordFields
end

