-- ==== Sys2Proof/Tests/Slice0.lean ====
section
/-! SUPPORT. Tests on fixed values, each from the table of 95_test_vectors.md or the rule named in its docstring, and one
witness for every statement with hypotheses (`witness_…`). -/

namespace Sys2Proof.Tests

open Sys2Proof Sys2Proof.Machine

/-! ## Small states -/

/-- N = 4, Q = 17, T = 5, SCALAR = 3, EXP = 5, STD = 3.2, GBOUND = 19, UMIN = -3, UMAX = 3. -/
def cfg17 : ConfigRegs := ⟨4, 17, 5, 3, 5, 0x333333333, 19, enc64 (-3), 3⟩

/-- P0 = `a` and P1 = `b`; every other cell `undef`. -/
def twoPolys (a b : List Int) : PolyFile :=
  writeCells Params.reference 1 0 b (writeCells Params.reference 0 0 a [])

/-- The reference block with the word `w` in flight under the configuration `c`. -/
def inFlight (c : ConfigRegs) (w : Word) (m : PolyFile) : State :=
  { State.reset with cfg := c, cmd := w, inflight := some ⟨w, c⟩, poly := m }

/-- The word `w` in flight under `cfg17` with P0 = [20, -20, 8, 9] and P1 = [5, 6, 7, 8]. -/
def running (w : Word) : State := inFlight cfg17 w (twoPolys [20, -20, 8, 9] [5, 6, 7, 8])

/-- What register `r` holds in cells 0 to 3 after an outcome. -/
def poly4 (o : Host.Outcome State Fault Refusal) (r : Nat) : Option (List Int) :=
  match o with
  | .next t => readCells t.params t.poly r 0 4
  | _ => none

/-- What STATUS reads after an outcome. -/
def statusOf (o : Host.Outcome State Fault Refusal) : Option Word :=
  match o with
  | .next t => some (readReg t .status)
  | _ => none

/-- The fault of an outcome. -/
def faultOf (o : Host.Outcome State Fault Refusal) : Option Fault :=
  match o with
  | .fault f => some f
  | _ => none

/-- The data a read left on the target port. -/
def dataOf (o : Host.Outcome State Fault Refusal) : Option Word :=
  match o with
  | .next t => t.readData
  | _ => none

/-! ## Well-formedness: an ill-formed term for each check -/

theorem test_center_rd_too_big : (Instr.center 16 0 .q).wellFormed = false := by decide
theorem test_center_rs1_too_big : (Instr.center 0 16 .q).wellFormed = false := by decide
theorem test_add_rd_too_big : (Instr.add 16 0 0 .q).wellFormed = false := by decide
theorem test_add_rs1_too_big : (Instr.add 0 16 0 .q).wellFormed = false := by decide
theorem test_add_rs2_too_big : (Instr.add 0 0 16 .q).wellFormed = false := by decide
theorem test_mul_rd_too_big : (Instr.mul 16 0 0 .q).wellFormed = false := by decide
theorem test_mul_rs1_too_big : (Instr.mul 0 16 0 .q).wellFormed = false := by decide
theorem test_mul_rs2_too_big : (Instr.mul 0 0 16 .q).wellFormed = false := by decide
theorem test_smul_rd_too_big : (Instr.smul 16 0 .q).wellFormed = false := by decide
theorem test_smul_rs1_too_big : (Instr.smul 0 16 .q).wellFormed = false := by decide
theorem test_pow_rd_too_big : (Instr.pow 16 0 .q).wellFormed = false := by decide
theorem test_pow_rs1_too_big : (Instr.pow 0 16 .q).wellFormed = false := by decide
theorem test_gauss_rd_too_big : (Instr.gauss 16 .q).wellFormed = false := by decide
theorem test_unif_rd_too_big : (Instr.unif 16 .q .whole).wellFormed = false := by decide
theorem test_all_fields_fit : (Instr.add 15 15 15 .t).wellFormed = true := by decide

/-! ## Decoding: words written out from R101, dr ms rs2 rs1 rd op from the left -/

theorem test_decode_center :
    decode 0b0_1_0000_0011_1001_0001 = .cmd (.center 9 3 .t) := by decide
theorem test_decode_add :
    decode 0b0_0_0001_0010_0100_0010 = .cmd (.add 4 2 1 .q) := by decide
theorem test_decode_mul :
    decode 0b0_1_1111_0000_0110_0011 = .cmd (.mul 6 0 15 .t) := by decide
theorem test_decode_smul :
    decode 0b0_0_0000_0111_0001_0100 = .cmd (.smul 1 7 .q) := by decide
theorem test_decode_pow :
    decode 0b0_1_0000_0001_1110_0101 = .cmd (.pow 14 1 .t) := by decide
theorem test_decode_gauss :
    decode 0b0_1_0000_0000_0101_0110 = .cmd (.gauss 5 .t) := by decide
theorem test_decode_unif_default :
    decode 0b1_0_0000_0000_0010_0111 = .cmd (.unif 2 .q .whole) := by decide
theorem test_decode_unif_range :
    decode 0b0_1_0000_0000_0010_0111 = .cmd (.unif 2 .t .bounds) := by decide
theorem test_encode_mul : encode (.mul 2 0 1 .q) = 0x00001023 := by decide
theorem test_encode_unif : encode (.unif 2 .q .whole) = 0x00020027 := by decide
theorem test_table_word : decodeTableWord 32 0x00007552 = some (.add 5 5 7 .q) := by decide

/-- The illegal words of 95_test_vectors.md 2.9. -/
theorem test_illegal_opcodes :
    decode 0x00000000 = .illegal .reservedOpcode ∧ decode 0x00000018 = .illegal .reservedOpcode ∧
      decode 0x0000000F = .illegal .reservedOpcode := by decide
theorem test_illegal_reserved_bits :
    decode 0x00040011 = .illegal .reservedBits ∧ decode 0x8000000000000011 = .illegal .reservedBits := by decide
theorem test_illegal_unused_fields :
    decode 0x00001011 = .illegal .unusedField ∧ decode 0x00021022 = .illegal .unusedField ∧
      decode 0x00000106 = .illegal .unusedField ∧ decode 0x00001007 = .illegal .unusedField := by decide

/-! ## The arithmetic on its own -/

/-- Rows of the table of 95_test_vectors.md 2.1. -/
theorem test_center_rows :
    center 8 17 = 8 ∧ center 9 17 = -8 ∧ center (-9) 17 = 8 ∧ center (-2 ^ 63) 17 = 8 ∧ center (-1) 2 = 1 ∧
      center (-2) 4 = 2 ∧ center 3 4 = -1 ∧ center (-2 ^ 63) (2 ^ 63 - 1) = -1 ∧ center (2 ^ 62) (2 ^ 62) = 0 := by
  decide

/-- L1.3 to L1.5: (x²-2x+1)/(x-1), (2x³+3x²+4x+3)/(x+1) and 2/(x+1). -/
theorem test_long_division :
    polydiv [1, -2, 1] [-1, 1] = ([-1, 1], [0, 0, 0]) ∧ polydiv [3, 4, 3, 2] [1, 1] = ([3, 1, 2], [0, 0, 0, 0]) ∧
      polydiv [2] [1, 1] = ([0], [2]) := by decide

/-- The draws of 95_test_vectors.md 2.7 (GAUSS.Q and GAUSS.T). -/
theorem test_gauss_cells :
    gaussCells 17 4 0x333333333 19 (fun i => coeff [0, 3, -2, 9] i) = [0, 3, -2, -8] ∧
      gaussCells 5 4 0x333333333 19 (fun i => coeff [0, 3, -2, 9] i) = [0, -2, -2, -1] := by decide

/-- The draws of 95_test_vectors.md 2.8 (the default range and [-3, 3]). -/
theorem test_uniform_cells :
    uniformCells 17 4 0 17 (fun i => coeff [0, 17, 9, 8] i) = [0, 0, -8, 8] ∧
      uniformCells 17 4 (-3) 3 (fun i => coeff [-3, 3, 0, -1] i) = [-3, 3, 0, -1] := by decide

/-! ## One step of each command (95_test_vectors.md 2.2 to 2.8) -/

theorem test_center_q : poly4 (step (running 0x00000011)) 1 = some [3, -3, 8, -8] := by decide
theorem test_center_t_in_place : poly4 (step (running 0x00010001)) 0 = some [0, 0, -2, -1] := by decide

/-- Exact 65-bit sums. -/
theorem test_add_exact :
    poly4 (step (inFlight cfg17 0x00001022
      (twoPolys [2 ^ 63 - 1, -2 ^ 63, 2 ^ 63 - 1, 0] [2 ^ 63 - 1, -2 ^ 63, 1, 0]))) 2 = some [-1, -1, -8, 0] := by decide
theorem test_add_all_equal :
    poly4 (step (inFlight cfg17 0x00000002 (twoPolys [8, 1, -3, 0] []))) 0 = some [-1, 2, -6, 0] := by decide

theorem test_mul_fold :
    poly4 (step (inFlight cfg17 0x00001023 (twoPolys [1, 2, 3, 4] [5, 6, 7, 8]))) 2 = some [-5, -2, 2, -8] := by decide
theorem test_mul_square_in_place :
    poly4 (step (inFlight cfg17 0x00000003 (twoPolys [1, 2, 3, 4] []))) 0 = some [-7, -3, -6, 3] := by decide

theorem test_smul_three :
    poly4 (step (inFlight cfg17 0x00000014 (twoPolys [3, -3, 6, 0] []))) 1 = some [-8, 8, 1, 0] := by decide
theorem test_smul_least_scalar :
    poly4 (step (inFlight { cfg17 with scalar := 0x8000000000000000 } 0x00000014 (twoPolys [1, -1, 8, 2] []))) 1 =
      some [8, -8, -4, -1] := by decide

theorem test_pow_five :
    poly4 (step (inFlight cfg17 0x00000015 (twoPolys [1, 1, 0, 0] []))) 1 = some [-4, 4, -7, -7] := by decide +kernel
theorem test_pow_zero :
    poly4 (step (inFlight { cfg17 with exp := 0 } 0x00000015 (twoPolys [0, 0, 0, 0] []))) 1 = some [1, 0, 0, 0] := by
  decide

/-- STD = 0 makes every draw 0, and the count of draws grows by N. -/
theorem test_gauss_std_zero :
    poly4 (step (inFlight { cfg17 with std := 0 } 0x00000006 [])) 0 = some [0, 0, 0, 0] := by decide
theorem test_unif_bad_range :
    statusOf (step (inFlight { cfg17 with umin := 5, umax := 4 } 0x00000027 [])) = some 0x506 := by decide

/-! ## Errors and faults (95_test_vectors.md 2.9 and 2.11) -/

theorem test_status_success : statusOf (step (running 0x00000011)) = some 0x2 := by decide
theorem test_status_illegal_over_bad_reg : statusOf (step (running 0x000000F9)) = some 0x106 := by decide
theorem test_status_bad_reg_over_degree :
    statusOf (step (inFlight { cfg17 with n := 3 } 0x00000091 [])) = some 0x206 := by decide
theorem test_status_degree_over_modulus :
    statusOf (step (inFlight { cfg17 with n := 3, q := 0 } 0x00000011 [])) = some 0x306 := by decide
theorem test_status_degree_above_nmax :
    statusOf (step (inFlight { cfg17 with n := 2048 } 0x00000011 [])) = some 0x306 := by decide
theorem test_status_modulus_over_range :
    statusOf (step (inFlight { cfg17 with q := 0, umin := 5, umax := 4 } 0x00000027 [])) = some 0x406 := by decide
theorem test_undef_operand_faults :
    faultOf (step (inFlight cfg17 0x00000011 (twoPolys [1, 2, 3] []))) = some .readUndefEngine := by decide
theorem test_pow_zero_reads_operand :
    faultOf (step (inFlight { cfg17 with exp := 0 } 0x00000015 (twoPolys [1, 2] []))) = some .readUndefEngine := by
  decide
theorem test_first_word_after_reset : statusOf (step (State.reset.withFetchWord 32 0x00000011)) = some 0x306 := by
  decide

/-! ## The host's side (95_test_vectors.md 2.9, 2.10 and 2.11) -/

theorem test_read_id : dataOf (hostAccess (readAt 0x000) State.reset) = some 0x00000001524C5745 := by decide
theorem test_read_param : dataOf (hostAccess (readAt 0x008) State.reset) = some 0x80A := by decide
theorem test_write_while_busy : statusOf (hostAccess (writeAt 0x020 0x11) (running 0x13)) = some 0x605 := by decide
theorem test_status_write_clears_done :
    statusOf (hostAccess (writeAt 0x018 0x2)
      { State.reset with done := true, errValid := true, err := .illegalCmd }) = some 0x104 := by decide
theorem test_status_write_clears_error :
    statusOf (hostAccess (writeAt 0x018 0x4)
      { State.reset with done := true, errValid := true, err := .illegalCmd }) = some 0x002 := by decide
theorem test_soft_reset_discards_ie :
    hostAccess (writeAt 0x010 0x3) { State.reset with cfg := cfg17, poly := twoPolys [1] [] } =
      Host.Outcome.next State.reset := by rfl
theorem test_irq_needs_ie :
    irq { State.reset with ie := true, errValid := true } = true ∧
      irq { State.reset with done := true, errValid := true } = false := by decide
theorem test_cell_offsets :
    cellOffset Params.reference 1 0 = 0x3000 ∧ cellOffset Params.reference 1 1 = 0x3008 ∧
      cellOffset Params.reference 7 1023 = 0x10FF8 ∧ windowSize Params.reference = 0x11000 := by decide
theorem test_bus_errors :
    faultOf (hostAccess (readAt 0x3004) State.reset) = some .busError ∧
      faultOf (hostAccess ⟨.read, 0x3000, .w32, 0xFF⟩ State.reset) = some .busError ∧
      faultOf (hostAccess (readAt 0x078) State.reset) = some .busError ∧
      faultOf (hostAccess (readAt 0x11000) State.reset) = some .busError := by decide
theorem test_host_read_undef : faultOf (hostAccess (readAt 0x3000) State.reset) = some .readUndefHost := by decide
theorem test_host_access_while_busy :
    faultOf (hostAccess (readAt 0x1000) (running 0x13)) = some .polyAccessWhileBusy := by decide
theorem test_host_write_then_read :
    dataOf (hostAccess (readAt 0x3000) { State.reset with poly := polyWrite [] 0x3000 (enc64 (-1)) }) =
      some 0xFFFFFFFFFFFFFFFF := by decide
theorem test_byte_lanes :
    byteLane 0x0102030405060708 0 = 0x08 ∧ byteLane 0x0102030405060708 7 = 0x01 := by decide

/-! ## Assembly (R110, R111) and host notation (R112) -/

theorem test_assemble :
    assemble 8 "center.T p1, p0" = some (.center 1 0 .t) ∧ assemble 8 "UNIF p2, range" = some (.unif 2 .q .bounds) ∧
      assemble 8 "UNIF.Q p2" = some (.unif 2 .q .whole) ∧ assemble 8 "PROJT p7, p7" = some (.center 7 7 .t) := by decide
theorem test_assemble_refuses : assemble 8 "MUL.Q p8, p0, p1" = none ∧ assemble 16 "ADD.Q p1, p0" = none := by decide
/-- Blanks around an operand are dropped, and a blank inside one refuses the line (the model's choice, assumption 14). -/
theorem test_assemble_blanks : assemble 16 "ADD.Q  p15 ,p0,  p1 " = some (.add 15 0 1 .q) ∧
    assemble 16 "ADD.Q p1 5, p0, p1" = none ∧ assemble 16 "UNIF p2, ran ge" = none := by decide
theorem test_wrpoly :
    wrPoly Params.reference 0 [0, 1] = [memWrite 0x1000 0, memWrite 0x1008 1] := by decide

/-! ## Witnesses: for every statement with hypotheses, concrete values that meet all of them together -/

/-- The outcome is a next state. -/
def isNext (o : Host.Outcome State Fault Refusal) : Bool :=
  match o with
  | .next _ => true
  | _ => false

theorem exists_next {o : Host.Outcome State Fault Refusal} (h : isNext o = true) : ∃ t, o = .next t := by
  cases o with
  | next t => exact ⟨t, rfl⟩
  | fault f => cases h
  | refused r => cases h

/-- The reference block with `w` in flight under `cfg17` takes the engine's turn. -/
theorem running_turn (w : Word) :
    takeTurn (running w) = (.engine, running w) ∧ (running w).inflight = some ⟨w, cfg17⟩ := ⟨rfl, rfl⟩

/-- Under `cfg17` (N = 4, Q = 17, T = 5, [UMIN, UMAX] = [-3, 3]) a command on registers below 8 passes its checks. -/
theorem passes_cfg17 (w : Word) (i : Instr) (h : ∀ r ∈ i.dest :: i.sources, r < 8) :
    Passes Params.reference ⟨w, cfg17⟩ i := by
  refine ⟨h, ⟨2, by decide, rfl⟩, ?_, fun _ _ _ => show sext64 (enc64 (-3)) ≤ sext64 3 by decide⟩
  cases i.modSel
  · show 0 < sext64 17
    decide
  · show 0 < sext64 5
    decide

theorem witness_DecodeOfEncode :
    (Instr.mul 15 0 7 .t).wellFormed = true ∧ (Instr.unif 15 .t .bounds).wellFormed = true := by decide

theorem witness_EncodeOfDecode : decode 0x0001F063 = .cmd (.mul 6 0 15 .t) := by decide

/-- Each disjunct of `IllegalWord` at a boundary: bits 18 and 63, the opcodes 0, 8 and 15, and an unused field of each
family. -/
theorem witness_IllegalWordsFail_illegal :
    ∀ w ∈ [0x00040011, 0x8000000000000011, 0x00000000, 0x00000008, 0x0000000F, 0x00001011, 0x00020004, 0x00008005,
        0x00020002, 0x00020003, 0x00000106, 0x00001006, 0x00020006, 0x00000107, 0x00001007],
      (takeTurn (running w) = (.engine, running w) ∧ (running w).inflight = some ⟨w, cfg17⟩) ∧ IllegalWord w := by
  suffices h : ∀ w ∈ _, IllegalWord w from fun w hw => ⟨running_turn w, h w hw⟩
  unfold IllegalWord
  repeat' first
    | exact List.forall_mem_nil _
    | refine List.forall_mem_cons.2 ⟨by decide, ?_⟩

theorem witness_IllegalWordsFail_legal :
    ∀ w ∈ [0x00000001, 0x0001FFF2, 0x00000FF3, 0x000000F6, 0x00030027],
      (takeTurn (running w) = (.engine, running w) ∧ (running w).inflight = some ⟨w, cfg17⟩) ∧ ¬ IllegalWord w := by
  suffices h : ∀ w ∈ _, ¬ IllegalWord w from fun w hw => ⟨running_turn w, h w hw⟩
  unfold IllegalWord
  repeat' first
    | exact List.forall_mem_nil _
    | refine List.forall_mem_cons.2 ⟨by decide, ?_⟩

/-- Each clause at a boundary: M = 1, an even and an odd M, the largest legal M, and a `c` at each end of its range. -/
theorem witness_CenterIsUniqueCenteredResidue :
    ((1 : Int) ≤ 1 ∧ (1 : Int) ≤ 2 ∧ (1 : Int) ≤ 17 ∧ (1 : Int) ≤ 2 ^ 63 - 1) ∧
      ((17 : Int) ∣ -8 - 9 ∧ (-17 : Int) < 2 * -8 ∧ (2 : Int) * -8 ≤ 17) ∧
      ((2 : Int) ∣ 1 - -1 ∧ (-2 : Int) < 2 * 1 ∧ (2 : Int) * 1 ≤ 2) ∧
      ((17 : Int) % 2 = 1 ∧ (2 : Int) % 2 = 0) := by decide

theorem witness_CenterLaws : (1 : Int) ≤ 1 ∧ (1 : Int) ≤ 17 := by decide

/-- A monic divisor of degree 2, one of degree 0, and the other quotient and remainder the uniqueness clause speaks of. -/
theorem witness_LongDivisionIsCorrect :
    (0 ≤ deg [1, 0, 1] ∧ coeff [1, 0, 1] (deg [1, 0, 1]).toNat = 1) ∧ (0 ≤ deg [1] ∧ coeff [1] (deg [1]).toNat = 1) ∧
      (∀ k, coeff [0, 0, 1] k = convCoeff [1] [1, 0, 1] k + coeff [-1] k) ∧ deg [-1] < deg [1, 0, 1] := by
  refine ⟨by decide, by decide, fun k => ?_, by decide⟩
  match k with
  | 0 => decide
  | 1 => decide
  | 2 => decide
  | k + 3 =>
    have h : ∀ i ∈ List.range (k + 3 + 1), coeff [1] i * coeff [1, 0, 1] (k + 3 - i) = 0 := fun i _ => by
      cases i with
      | zero => simp [coeff]
      | succ i => simp [coeff]
    have : convCoeff [1] [1, 0, 1] (k + 3) = 0 := by
      rw [convCoeff, List.map_congr_left h]
      simp
    rw [this]
    simp [coeff]

theorem witness_RingReductionIsNegacyclicFold :
    (1 ≤ 1 ∧ ([35] : List Int).length = 2 * 1 - 1) ∧
      (1 ≤ 4 ∧ ([5, 16, 34, 60, 61, 52, 32] : List Int).length = 2 * 4 - 1 ∧ 2 + 1 < 4) := by decide

/-- The lengths the ring laws assume, at N = 1 and N = 4 (`a`, `b`, `c` of length N; M = 1 and M = 17): for the statements
MulIsProductInQuotientRing, AddAndMulCommute, MulAssociates, MulDistributesOverAdd, PowAddsExponents, ScalarLaws and
PowCornerCases. -/
theorem witness_ring_laws :
    ((1 : Int) ≤ 1 ∧ 1 ≤ 1 ∧ ([5] : List Int).length = 1) ∧
      ((1 : Int) ≤ 17 ∧ 1 ≤ 4 ∧ ([1, 2, 3, 4] : List Int).length = 4 ∧ ([5, 6, 7, 8] : List Int).length = 4 ∧
        ([0, 0, 0, 1] : List Int).length = 4 ∧ 2 ≤ 4) := by decide

/-- A draw of -B and of B, and the ends of [-3, 3]. -/
theorem witness_DrawsAreAnyValueOfTheirRange :
    ((1 : Nat) ≠ 0 ∧ -((19 : Nat) : Int) ≤ -19 ∧ (19 : Int) ≤ (19 : Nat)) ∧ ((-3 : Int) ≤ -3 ∧ (3 : Int) ≤ 3 ∧ (-3 : Int) ≤ 3) := by
  decide

/-- CENTER.Q p1, p0 and, in place, CENTER.T p0, p0. -/
theorem witness_CenterCompletes :
    ((running 0x11).inflight = some ⟨0x11, cfg17⟩ ∧ Passes (running 0x11).params ⟨0x11, cfg17⟩ (.center 1 0 .q) ∧
        HoldsPoly (running 0x11) 0 (ringDegree ⟨0x11, cfg17⟩) [20, -20, 8, 9]) ∧
      Passes (running 0x10001).params ⟨0x10001, cfg17⟩ (.center 0 0 .t) :=
  ⟨⟨rfl, passes_cfg17 _ _ (by decide), rfl, by decide⟩, passes_cfg17 _ _ (by decide)⟩

/-- ADD.Q p2, p0, p1. -/
theorem witness_AddCompletes :
    (running 0x1022).inflight = some ⟨0x1022, cfg17⟩ ∧ Passes (running 0x1022).params ⟨0x1022, cfg17⟩ (.add 2 0 1 .q) ∧
      HoldsPoly (running 0x1022) 0 (ringDegree ⟨0x1022, cfg17⟩) [20, -20, 8, 9] ∧
      HoldsPoly (running 0x1022) 1 (ringDegree ⟨0x1022, cfg17⟩) [5, 6, 7, 8] :=
  ⟨rfl, passes_cfg17 _ _ (by decide), ⟨rfl, by decide⟩, rfl, by decide⟩

/-- MUL.Q p0, p0, p1, whose destination is a source. -/
theorem witness_MulCompletes :
    (running 0x1003).inflight = some ⟨0x1003, cfg17⟩ ∧ Passes (running 0x1003).params ⟨0x1003, cfg17⟩ (.mul 0 0 1 .q) ∧
      HoldsPoly (running 0x1003) 0 (ringDegree ⟨0x1003, cfg17⟩) [20, -20, 8, 9] ∧
      HoldsPoly (running 0x1003) 1 (ringDegree ⟨0x1003, cfg17⟩) [5, 6, 7, 8] :=
  ⟨rfl, passes_cfg17 _ _ (by decide), ⟨rfl, by decide⟩, rfl, by decide⟩

/-- SMUL.Q p1, p0. -/
theorem witness_SmulCompletes :
    (running 0x14).inflight = some ⟨0x14, cfg17⟩ ∧ Passes (running 0x14).params ⟨0x14, cfg17⟩ (.smul 1 0 .q) ∧
      HoldsPoly (running 0x14) 0 (ringDegree ⟨0x14, cfg17⟩) [20, -20, 8, 9] :=
  ⟨rfl, passes_cfg17 _ _ (by decide), rfl, by decide⟩

/-- POW.Q p1, p0, with the powers of P0. -/
theorem witness_PowCompletes :
    ((running 0x15).inflight = some ⟨0x15, cfg17⟩ ∧ Passes (running 0x15).params ⟨0x15, cfg17⟩ (.pow 1 0 .q) ∧
        HoldsPoly (running 0x15) 0 (ringDegree ⟨0x15, cfg17⟩) [20, -20, 8, 9]) ∧
      ringPow 17 4 [20, -20, 8, 9] 0 = center 1 17 :: List.replicate (4 - 1) 0 ∧
      ∀ e, ringPow 17 4 [20, -20, 8, 9] (e + 1) =
        (ringred (conv (ringPow 17 4 [20, -20, 8, 9] e) [20, -20, 8, 9]) 4).map fun v => center v 17 :=
  ⟨⟨rfl, passes_cfg17 _ _ (by decide), rfl, by decide⟩, rfl, fun _ => rfl⟩

theorem witness_GaussCompletes :
    (running 0x6).inflight = some ⟨0x6, cfg17⟩ ∧ Passes (running 0x6).params ⟨0x6, cfg17⟩ (.gauss 0 .q) :=
  ⟨rfl, passes_cfg17 _ _ (by decide)⟩

/-- UNIF.Q p2 (dr = 1) and UNIF.Q p2, range (dr = 0). -/
theorem witness_UnifCompletes :
    ((running 0x20027).inflight = some ⟨0x20027, cfg17⟩ ∧
        Passes (running 0x20027).params ⟨0x20027, cfg17⟩ (.unif 2 .q .whole)) ∧
      Passes (running 0x27).params ⟨0x27, cfg17⟩ (.unif 2 .q .bounds) :=
  ⟨⟨rfl, passes_cfg17 _ _ (by decide)⟩, passes_cfg17 _ _ (by decide)⟩

/-- One command of each kind that answers a next state, and one that fails (BAD_REG). -/
theorem witness_RingCommandFrame :
    (∀ i ∈ [Instr.center 1 0 .q, .add 2 0 1 .q, .mul 2 0 1 .t, .smul 1 0 .q, .pow 1 0 .q, .center 9 0 .q],
      ∃ t, exec i (running 0x11) = .next t) ∧
      (running 0x11).inflight = some ⟨0x11, cfg17⟩ ∧ (∀ rd ms, Instr.center 1 0 .q ≠ .gauss rd ms) ∧
      ∀ rd ms dr, Instr.center 1 0 .q ≠ .unif rd ms dr := by
  refine ⟨fun i hi => exists_next ?_, rfl, by simp, by simp⟩
  revert i
  decide +kernel

theorem witness_SamplerFrame :
    ((∃ t, exec (.gauss 0 .q) (running 0x6) = .next t) ∧ ∃ t, exec (.unif 9 .q .whole) (running 0x6) = .next t) ∧
      (running 0x6).inflight = some ⟨0x6, cfg17⟩ :=
  ⟨⟨⟨_, rfl⟩, ⟨_, rfl⟩⟩, rfl⟩

/-- Each clause: an illegal word; rd = 8 = R; N = 0, N = 3 and N = 2 * NMAX; Q = 0; UMIN = UMAX + 1. -/
theorem witness_ChecksFailInOrder :
    (decode 0x8 = .illegal .reservedOpcode ∧ decode 0x81 = .cmd (.center 8 0 .q) ∧ decode 0x11 = .cmd (.center 1 0 .q) ∧
        decode 0x27 = .cmd (.unif 2 .q .bounds)) ∧
      ¬ RegsInRange Params.reference (.center 8 0 .q) ∧ RegsInRange Params.reference (.center 7 0 .q) ∧
      (∀ n ∈ [0, 3, 2048], ¬ LegalDegree Params.reference n) ∧ (∀ n ∈ [1, 1024], LegalDegree Params.reference n) ∧
      modulus ⟨0x11, { cfg17 with q := 0 }⟩ .q ≤ 0 ∧
      ¬ RangeOrdered ⟨0x27, { cfg17 with umin := 4, umax := 3 }⟩ (.unif 2 .q .bounds) := by
  refine ⟨by decide, fun h => absurd (h 8 (by decide)) (by decide), fun r hr => ?_, ?_, ?_, by decide, fun h => ?_⟩
  · revert r
    decide
  · rintro n hn ⟨k, hk, rfl⟩
    have hk : k < 11 := Nat.lt_succ_of_le hk
    revert hn
    revert k
    decide
  · intro n hn
    rcases List.mem_pair.1 hn with rfl | rfl
    · exact ⟨0, by decide, rfl⟩
    · exact ⟨10, by decide, rfl⟩
  · exact absurd (h 2 .q rfl) (by decide)

/-- POW with an `undef` cell 3 of its source. -/
theorem witness_UndefOperandFaults :
    (inFlight cfg17 0x15 (twoPolys [1, 2, 3] [])).inflight = some ⟨0x15, cfg17⟩ ∧
      Passes (inFlight cfg17 0x15 (twoPolys [1, 2, 3] [])).params ⟨0x15, cfg17⟩ (.pow 1 0 .q) ∧
      0 ∈ (Instr.pow 1 0 .q).sources ∧ 3 < ringDegree ⟨0x15, cfg17⟩ ∧
      cell (inFlight cfg17 0x15 (twoPolys [1, 2, 3] [])) 0 3 = none :=
  ⟨rfl, passes_cfg17 _ _ (by decide), by decide, by decide, by decide⟩

/-- Each clause: a sampler that passes, a sampler that fails (BAD_REG) and another command. -/
theorem witness_SamplersTakeExactlyNDraws :
    (running 0x6).inflight = some ⟨0x6, cfg17⟩ ∧
      (∃ t, exec (.gauss 0 .q) (running 0x6) = .next t) ∧ Passes (running 0x6).params ⟨0x6, cfg17⟩ (.gauss 0 .q) ∧
      (∃ t, exec (.unif 2 .q .whole) (running 0x6) = .next t) ∧
      Passes (running 0x6).params ⟨0x6, cfg17⟩ (.unif 2 .q .whole) ∧ 3 < ringDegree ⟨0x6, cfg17⟩ ∧
      (∃ t, exec (.gauss 8 .q) (running 0x6) = .next t) ∧ ¬ Passes (running 0x6).params ⟨0x6, cfg17⟩ (.gauss 8 .q) :=
  ⟨rfl, ⟨_, rfl⟩, passes_cfg17 _ _ (by decide), ⟨_, rfl⟩, passes_cfg17 _ _ (by decide), by decide, ⟨_, rfl⟩,
    fun h => absurd (h.1 8 (by decide)) (by decide)⟩

/-- Cell 2 of P1 changes from 7 to 8. -/
theorem witness_CommandsLeaveCenteredCells :
    ∃ t, exec (.center 1 0 .q) (running 0x11) = .next t ∧
      polyRead t.poly (cellOffset Params.reference 1 2) ≠ polyRead (running 0x11).poly (cellOffset Params.reference 1 2) :=
  ⟨_, rfl, by decide +kernel⟩

/-- A command that completes, and one that faults. -/
theorem witness_CompletionIgnoresLaterConfigWrites :
    (running 0x11).inflight ≠ none ∧ (∃ t, exec (.center 1 0 .q) (running 0x11) = .next t) ∧
      exec (.center 1 2 .q) (running 0x11) = .fault .readUndefEngine :=
  ⟨by simp [running, inFlight], ⟨_, rfl⟩, rfl⟩

theorem witness_ReservedBitsReadZero :
    State.reset.params.Wf ∧ bits 0xFD 1 0 = bits 0x1 1 0 ∧ bits 0xFF 2 1 = bits 0x6 2 1 ∧
      Reg.umax ∈ [Reg.n, .q, .t, .scalar, .exp, .std, .gbound, .umin, .umax] := by decide

/-- A recorded error, and each way to clear it: STATUS bit 2, soft reset, `rst`. -/
theorem witness_ErrorIsKeptUntilCleared :
    ∀ x ∈ [Input.engine, .access (writeAt 0x018 4), .access (writeAt 0x018 2), .access (writeAt 0x010 2), .rst],
      ({ State.reset with errValid := true, err := .badReg, inputs := [x] } : State).errValid = true ∧
        ∃ t, step { State.reset with errValid := true, err := .badReg, inputs := [x] } = .next t := by
  intro x hx
  refine ⟨rfl, exists_next ?_⟩
  revert x
  decide

theorem witness_CompletionRaisesIrq :
    (running 0x11).inflight ≠ none ∧ (∃ t, engineTurn exec (running 0x11) = .next t) ∧
      ∃ t, engineTurn exec (running 0x0) = .next t :=
  ⟨by simp [running, inFlight], ⟨_, rfl⟩, ⟨_, rfl⟩⟩

/-- Both clauses: an idle and a busy block. -/
theorem witness_CmdWriteAcceptsOrRejects : State.reset.inflight = none ∧ (running 0x13).inflight ≠ none :=
  ⟨rfl, by simp [running, inFlight]⟩

theorem witness_ConfigWriteStores :
    Reg.n ∈ [Reg.n, .q, .t, .scalar, .exp, .std, .gbound, .umin, .umax] ∧ Reg.status ≠ .n := by decide

theorem witness_ReadOnlyRegisters :
    State.reset.params.Wf ∧ State.reset.params.log2Nmax = 10 ∧ State.reset.params.nreg = 8 := by decide

/-- Each clause: a pseudo-random generator, busy and idle; the two other sources; a sampler that completes. -/
theorem witness_SeedWriteIsHeldWhileBusy :
    ((running 0x13).params.entropySource = .pseudoRandom ∧ (running 0x13).inflight ≠ none) ∧
      (State.reset.params.entropySource = .pseudoRandom ∧ State.reset.inflight = none) ∧
      (State.resetOf ⟨10, 8, .trueRandom⟩).params.entropySource ≠ .pseudoRandom ∧
      (State.resetOf ⟨10, 8, .externalPort⟩).params.entropySource ≠ .pseudoRandom ∧
      ∃ t, exec (.gauss 0 .q) (running 0x6) = .next t :=
  ⟨⟨rfl, by simp [running, inFlight]⟩, ⟨rfl, rfl⟩, by decide, by decide, _, rfl⟩

/-- R51: a second SEED write while busy replaces the first, and completion applies it. -/
theorem test_seed_held : (writeSeed 8 (writeSeed 7 (running 0x11))).heldSeed = some 8 ∧
    (finishCommand (writeSeed 8 (running 0x11))).entropy.seed = some 8 := by decide
/-- R51: without a pseudo-random generator a SEED write has no effect, idle or busy. -/
theorem test_seed_true_random : writeSeed 7 (State.resetOf ⟨10, 8, .trueRandom⟩) = State.resetOf ⟨10, 8, .trueRandom⟩ ∧
    (writeSeed 7 { running 0x11 with params := ⟨10, 8, .externalPort⟩ }).heldSeed = none := by decide

/-- Both clauses: bit 1 clear beside every other bit set, and bit 1 alone. -/
theorem witness_CtrlWrite : bits 0xFFFFFFFFFFFFFFFD 1 1 = 0 ∧ bits 0x2 1 1 = 1 := by decide

theorem witness_HardwareResetLeavesResetState :
    ({ running 0x13 with inputs := [.rst] } : State).inputs = .rst :: [] ∧ Reg.status ≠ .id ∧ Reg.status ≠ .param := by
  decide

/-- The first and the last cell of the window. -/
theorem witness_CellOffsetsFillTheWindow :
    (0 < Params.reference.nreg ∧ 0 < Params.reference.nmax ∧ 7 < Params.reference.nreg ∧ 1023 < Params.reference.nmax) ∧
      IsCellOffset Params.reference 0x1000 ∧ IsCellOffset Params.reference 0x10FF8 ∧
      cellOffset Params.reference 0 0 = cellOffset Params.reference 0 0 := by decide

/-- The clauses: a busy block, an `undef` cell and a written one. -/
theorem witness_HostReadsCell :
    (1 < State.reset.params.nreg ∧ 1023 < State.reset.params.nmax) ∧ (running 0x13).inflight ≠ none ∧
      ({ State.reset with poly := polyWrite [] 0x3000 5 } : State).inflight = none ∧
      cell { State.reset with poly := polyWrite [] 0x3000 5 } 1 1 = none ∧
      cell { State.reset with poly := polyWrite [] 0x3000 5 } 1 0 = some 5 := by decide

theorem witness_HostWritesCell :
    (7 < State.reset.params.nreg ∧ 1023 < State.reset.params.nmax) ∧ (running 0x13).inflight ≠ none ∧
      State.reset.inflight = none := by decide

theorem witness_CellAccessWhileBusyFaults :
    (running 0x13).inflight ≠ none ∧ IsCellOffset (running 0x13).params 0x1000 ∧
      IsCellOffset (running 0x13).params 0x10FF8 := by decide

/-- Each disjunct at a boundary, and the two offsets beside the reserved ones. -/
theorem witness_BusErrorsExactly :
    (∀ a ∈ [readAt 0x078, readAt 0xFF8, readAt 0x11000, readAt 0x1004, ⟨.read, 0x018, .w32, 0xFF⟩, ⟨.read, 0x018, .w64, 0x7F⟩],
      faultOf (hostAccess a State.reset) = some .busError) ∧
      ∀ a ∈ [readAt 0x070, readAt 0x1000, readAt 0x10FF8], faultOf (hostAccess a State.reset) ≠ some .busError := by decide

/-- The first clause; the other two have no hypotheses. -/
theorem witness_HostReadsHaveNoSideEffects :
    (readAt 0x018).kind = .read ∧ ∃ t, hostAccess (readAt 0x018) (running 0x13) = .next t := ⟨rfl, _, rfl⟩

theorem witness_AssemblerRefusesAbsentRegisters :
    8 ≤ 16 ∧ assemble 8 "ADD.T p7, p0, p1" = some (.add 7 0 1 .t) := by decide

/-- Both clauses: no input waits, and an engine turn waits. -/
theorem witness_StepRunsDecodedCommand :
    (running 0x11).inflight = some ⟨0x11, cfg17⟩ ∧ decode 0x11 = .cmd (.center 1 0 .q) ∧ (running 0x11).inputs = [] ∧
      ({ running 0x11 with inputs := [.engine, .rst] } : State).inputs = .engine :: [.rst] :=
  ⟨rfl, by decide, rfl, rfl⟩

/-- The three clauses: a host access, nothing, and an engine turn. -/
theorem witness_StepTakesTheNextInput :
    ({ State.reset with inputs := [memRead 0x018] } : State).inputs = .access (readAt 0x018) :: [] ∧
      (State.reset.inflight = none ∧ State.reset.inputs = []) ∧
      ({ State.reset with inputs := [.engine] } : State).inputs = .engine :: [] := by decide

/-- The smallest and the largest sizes. -/
theorem witness_ResetMeetsTheInvariant : (Params.mk 0 1 .trueRandom).Wf ∧ (Params.mk 16 16 .pseudoRandom).Wf := by decide

theorem witness_StepKeepsTheInvariant : (running 0x11).Inv ∧ ∃ t, step (running 0x11) = .next t :=
  ⟨by decide +kernel, _, rfl⟩

/-- A step with each of the four faults. -/
theorem witness_FaultsHaveTheirCauses :
    (step { State.reset with inputs := [.access (readAt 0x078)] } = .fault .busError ∧
        step { running 0x13 with inputs := [.access (readAt 0x1000)] } = .fault .polyAccessWhileBusy) ∧
      step { State.reset with inputs := [.access (readAt 0x1000)] } = .fault .readUndefHost ∧
      step (inFlight cfg17 0x11 []) = .fault .readUndefEngine := ⟨⟨rfl, rfl⟩, rfl, rfl⟩

/-- A command that comes into flight, and one that leaves it. -/
theorem witness_OnlyTheseStepsChangeBusy :
    (∃ t, step { State.reset with inputs := [memWrite 0x020 0x11] } = .next t ∧ t.inflight ≠ none) ∧
      ∃ t, step (running 0x11) = .next t ∧ t.inflight ≠ (running 0x11).inflight :=
  ⟨⟨_, rfl, by decide⟩, _, rfl, by decide +kernel⟩

/-- A cell changed by the host, by a command, and by a reset. -/
theorem witness_OnlyTheseStepsChangeCells :
    (∃ t, step { State.reset with inputs := [memWrite 0x1000 7] } = .next t ∧
        polyRead t.poly 0x1000 ≠ polyRead State.reset.poly 0x1000) ∧
      (∃ t, step (running 0x11) = .next t ∧ polyRead t.poly 0x3000 ≠ polyRead (running 0x11).poly 0x3000) ∧
      ∃ t, step { running 0x11 with inputs := [.rst] } = .next t ∧
        polyRead t.poly 0x3000 ≠ polyRead (running 0x11).poly 0x3000 :=
  ⟨⟨_, rfl, by decide⟩, ⟨_, rfl, by decide +kernel⟩, _, rfl, by decide⟩

theorem witness_RunsReachTheirEnd : ∃ t, RunsTo 2 { State.reset with inputs := [memWrite 0x020 0x11] } t :=
  ⟨_, rfl⟩

/-- A command completed, with DONE = 1, and the inputs given next. -/
def completed (inputs : List Input) : State := { State.reset with done := true, inputs := inputs }

/-- The first and the third clause: an accepted CMD write; a STATUS read while BUSY = 1 and one while DONE = 1. -/
theorem witness_StatusReadAfterAcceptIsNotStale :
    (∃ t, step (completed [memWrite 0x020 0x11]) = .next t) ∧
      ({ running 0x11 with inputs := [memRead 0x018] } : State).inflight ≠ none ∧
      (completed [memRead 0x018]).inflight = none ∧ (completed [memRead 0x018]).done = true :=
  ⟨⟨_, rfl⟩, by decide, rfl, rfl⟩

/-- The second clause where its cases meet: from BUSY = 1, the engine and a STATUS write with bit 1 = 1; from DONE = 1, a
STATUS write with bit 2 alone, a CTRL write with bit 0 alone, and the three exceptions. -/
theorem witness_StatusReadAfterAcceptIsNotStale_steps :
    ((∃ t, step (running 0x11) = .next t ∧ t.done = true) ∧
        ∃ t, step { running 0x11 with inputs := [memWrite 0x018 2] } = .next t ∧ t.inflight ≠ none) ∧
      ((∃ t, step (completed [memWrite 0x018 4]) = .next t ∧ t.done = true) ∧
        ∃ t, step (completed [memWrite 0x010 1]) = .next t ∧ t.done = true) ∧
      (∃ t, step (completed [memWrite 0x018 2]) = .next t ∧ t.done = false) ∧
      (∃ t, step (completed [memWrite 0x010 2]) = .next t ∧ t.done = false) ∧
      ∃ t, step (completed [.rst]) = .next t ∧ t.done = false :=
  ⟨⟨⟨_, rfl, rfl⟩, _, rfl, by decide⟩, ⟨⟨_, rfl, rfl⟩, _, rfl, rfl⟩, ⟨_, rfl, rfl⟩, ⟨_, rfl, rfl⟩, _, rfl, rfl⟩

end Sys2Proof.Tests
end

namespace Sys2Proof.Machine

/-! ## Fields and bits of a word -/

/-- Bit `k` of a word (R17) is the bit of its number. -/
theorem bit_eq_testBit (v : Word) (k : Nat) : bit v k = v.toNat.testBit k := by
  simp [bit, bits, Nat.testBit_eq_decide_div_mod_eq]

/-- Bit `j` of a field is bit `lo + j` of the word, as far as the field reaches. -/
theorem testBit_bits (v : Word) (hi lo j : Nat) :
    (bits v hi lo).testBit j = (decide (j < hi + 1 - lo) && bit v (lo + j)) := by
  rw [bits, Nat.testBit_mod_two_pow, Nat.testBit_div_two_pow, bit_eq_testBit, Nat.add_comm j lo]

/-- Words that agree on a field agree on each of its bits. -/
theorem bit_eq_of_bits_eq {v w : Word} {hi lo k : Nat} (h : bits v hi lo = bits w hi lo) (hlo : lo ≤ k) (hhi : k ≤ hi) :
    bit v k = bit w k := by
  have hj := congrArg (Nat.testBit · (k - lo)) h
  simpa [testBit_bits, show k - lo < hi + 1 - lo by omega, Nat.add_sub_cancel' hlo] using hj

/-! ## What CTRL, STATUS and PARAM read as (R36, R37, R39) -/

/-- The code numbers of R221 fit the field ERR. -/
theorem errNumber_le (e : ErrCode) : errNumber e ≤ 6 := by cases e <;> decide

/-- CTRL shows IE in bit 0 (R36) and 0 in its reserved bits (R54). -/
theorem bits_ctrlWord (s : State) : bits (ctrlWord s) 0 0 = s.ie.toNat ∧ bits (ctrlWord s) 63 1 = 0 := by
  have hie := s.ie.toNat_lt
  simp only [bits, ctrlWord, BitVec.toNat_ofNat]
  omega

/-- STATUS shows BUSY, DONE and ERR_VALID in bits 0 to 2, ERR in bits 11:8 (R37) and 0 in its reserved bits (R54). -/
theorem bits_statusWord (s : State) :
    bits (statusWord s) 0 0 = (busy s).toNat ∧ bits (statusWord s) 1 1 = s.done.toNat ∧
      bits (statusWord s) 2 2 = s.errValid.toNat ∧ bits (statusWord s) 7 3 = 0 ∧
      bits (statusWord s) 11 8 = errNumber s.err ∧ bits (statusWord s) 63 12 = 0 := by
  have hbusy := (busy s).toNat_lt
  have hdone := s.done.toNat_lt
  have hvalid := s.errValid.toNat_lt
  have herr := errNumber_le s.err
  simp only [bits, statusWord, BitVec.toNat_ofNat]
  omega

/-- PARAM shows log2(NMAX) in bits 4:0, R in bits 12:8 (R39) and 0 in its reserved bits (R54). -/
theorem bits_paramWord {p : Params} (h : p.Wf) :
    bits (paramWord p) 4 0 = p.log2Nmax ∧ bits (paramWord p) 7 5 = 0 ∧ bits (paramWord p) 12 8 = p.nreg ∧
      bits (paramWord p) 63 13 = 0 := by
  obtain ⟨hlog, -, hnreg⟩ := h
  simp only [bits, paramWord, BitVec.toNat_ofNat]
  omega

/-! ## What a write of CTRL, STATUS or SEED reads of the word, and of the state -/

/-- A CTRL write acts on bits 1:0 alone (R36, R54). -/
theorem writeCtrl_congr (s : State) {v w : Word} (h : bits v 1 0 = bits w 1 0) : writeCtrl v s = writeCtrl w s := by
  have h0 : bit v 0 = bit w 0 := bit_eq_of_bits_eq h (by decide) (by decide)
  have h1 : bit v 1 = bit w 1 := bit_eq_of_bits_eq h (by decide) (by decide)
  simp only [writeCtrl, h0, h1]

/-- A STATUS write acts on bits 2:1 alone (R37, R54). -/
theorem writeStatus_congr (s : State) {v w : Word} (h : bits v 2 1 = bits w 2 1) : writeStatus v s = writeStatus w s := by
  have h1 : bit v 1 = bit w 1 := bit_eq_of_bits_eq h (by decide) (by decide)
  have h2 : bit v 2 = bit w 2 := bit_eq_of_bits_eq h (by decide) (by decide)
  simp only [writeStatus, clearDone, clearError, h1, h2]

/-- A configuration register reads back all 64 bits written to it (R54). -/
theorem readReg_writeReg_config (s : State) (v : Word) {r : Reg}
    (h : r ∈ [Reg.n, .q, .t, .scalar, .exp, .std, .gbound, .umin, .umax]) : readReg (writeReg s v r) r = v := by
  simp only [List.mem_cons, List.not_mem_nil, or_false] at h
  rcases h with rfl | rfl | rfl | rfl | rfl | rfl | rfl | rfl | rfl <;> rfl

/-- A SEED write while a command is in flight is held, in place of one held before (R51). -/
theorem writeSeed_busy {s : State} (v : Word) (hp : s.params.entropySource = .pseudoRandom) (hb : s.inflight ≠ none) :
    writeSeed v s = { s with heldSeed := some v } := by
  obtain ⟨l, hl⟩ := Option.ne_none_iff_exists'.1 hb
  simp only [writeSeed, hl, holdSeed, hp]

/-- A SEED write with no command in flight reseeds the generator at once (R51). -/
theorem writeSeed_idle {s : State} (v : Word) (hp : s.params.entropySource = .pseudoRandom) (hi : s.inflight = none) :
    writeSeed v s = { s with entropy := ⟨some v, s.entropy.drawn⟩ } := by
  simp only [writeSeed, hi, applySeed, hp]

/-- A SEED write has no effect without a pseudo-random generator (R51). -/
theorem writeSeed_without_generator {s : State} (v : Word) (hp : s.params.entropySource ≠ .pseudoRandom) :
    writeSeed v s = s := by
  cases hs : s.params.entropySource
  case pseudoRandom => exact absurd hs hp
  all_goals cases hl : s.inflight <;> simp only [writeSeed, holdSeed, applySeed, hs, hl]

/-! ## The interrupt line and the end of a completion -/

theorem irq_eq_true_iff (s : State) : irq s = true ↔ s.ie = true ∧ (s.done = true ∨ s.errValid = true) := by
  simp [irq]

/-- Every completion step, success or failure, sets DONE and leaves IE (R115, R223). -/
theorem engineTurn_done_ie {s t : State} (hb : s.inflight ≠ none) (h : engineTurn exec s = .next t) :
    t.done = true ∧ t.ie = s.ie := by
  rcases engineTurn_next_cases h with ⟨hn, -⟩ | ⟨_, -, ⟨i, -, hx⟩ | ⟨_, -, rfl⟩⟩
  · exact absurd hn hb
  · obtain ⟨_, -, ⟨e, -, rfl⟩ | ⟨-, -, -, -, result, draws, -, rfl⟩⟩ := exec_next_cases hx
    · simp
    · simp
  · simp

/-- A read changes only the data on the target port (R76). -/
theorem hostAccess_read_frame {s t : State} {a : Access} (hr : a.kind = .read) (h : hostAccess a s = .next t) :
    t = { s with readData := t.readData } := by
  obtain ⟨-, ⟨r, -, ⟨-, rfl⟩ | ⟨v, hw, -⟩⟩ | ⟨-, off, -, ⟨v, -, -, rfl⟩ | ⟨v, hw, -⟩⟩⟩ := hostAccess_next_cases h
  · rfl
  · rw [hr] at hw; cases hw
  · rfl
  · rw [hr] at hw; cases hw

/-! ## What a completion reads of the state -/

/-- An outcome with its next state, where it has one, changed by `g`. -/
def mapNext (g : State → State) : Host.Outcome State Fault Refusal → Host.Outcome State Fault Refusal
  | .next t => .next (g t)
  | .fault f => .fault f
  | .refused r => .refused r

/-- `s` and `s'` agree on what a completion reads (the sizes, the in-flight record, the cells, the count of draws), and
their failures and successes differ by `g`. -/
structure CompletesAlike (g : State → State) (s s' : State) : Prop where
  params : s'.params = s.params
  inflight : s'.inflight = s.inflight
  poly : s'.poly = s.poly
  drawn : s'.entropy.drawn = s.entropy.drawn
  fail : ∀ e, failCommand e s' = g (failCommand e s)
  complete : ∀ rd result draws,
    completeCommand rd result (takeDraws draws s') = g (completeCommand rd result (takeDraws draws s))

section
variable {g : State → State} {s s' : State} (h : CompletesAlike g s s')
include h

theorem CompletesAlike.rawDraw_eq : rawDraw s' = rawDraw s := by
  funext i
  simp only [rawDraw, h.drawn]

theorem withChecks_mapNext {used : List Nat} {ms : ModSel} {range : Option RangeSel}
    {k k' : InFlight → Host.Outcome State Fault Refusal} (hk : ∀ l, k' l = mapNext g (k l)) :
    withChecks s' used ms range k' = mapNext g (withChecks s used ms range k) := by
  unfold withChecks
  rw [h.inflight, h.params]
  cases s.inflight with
  | none => rfl
  | some l =>
    dsimp only
    split
    · exact hk l
    · simp only [h.fail, mapNext]

theorem withOperand_mapNext {l : InFlight} {r : Nat} {k k' : List Int → Host.Outcome State Fault Refusal}
    (hk : ∀ a, k' a = mapNext g (k a)) : withOperand s' l r k' = mapNext g (withOperand s l r k) := by
  unfold withOperand
  rw [h.params, h.poly]
  cases readCells s.params s.poly r 0 (ringDegree l) with
  | none => rfl
  | some a => exact hk a

theorem completeCommand_mapNext (rd : Nat) (result : List Int) :
    Host.Outcome.next (completeCommand rd result s') = mapNext g (.next (completeCommand rd result s)) :=
  congrArg _ (h.complete rd result 0)

/-- A command completes alike from states that agree on what a completion reads: the same fault or refusal, or next
states that differ by `g`. -/
theorem exec_mapNext (i : Instr) : exec i s' = mapNext g (exec i s) := by
  cases i with
  | center rd rs1 ms =>
    exact withChecks_mapNext h fun l => withOperand_mapNext h fun a => completeCommand_mapNext h ..
  | add rd rs1 rs2 ms =>
    exact withChecks_mapNext h fun l => withOperand_mapNext h fun a => withOperand_mapNext h fun b =>
      completeCommand_mapNext h ..
  | mul rd rs1 rs2 ms =>
    exact withChecks_mapNext h fun l => withOperand_mapNext h fun a => withOperand_mapNext h fun b =>
      completeCommand_mapNext h ..
  | smul rd rs1 ms =>
    exact withChecks_mapNext h fun l => withOperand_mapNext h fun a => completeCommand_mapNext h ..
  | pow rd rs1 ms =>
    exact withChecks_mapNext h fun l => withOperand_mapNext h fun a => completeCommand_mapNext h ..
  | gauss rd ms =>
    refine withChecks_mapNext h fun l => ?_
    simp only [h.rawDraw_eq, h.complete, mapNext]
  | unif rd ms dr =>
    refine withChecks_mapNext h fun l => ?_
    simp only [h.rawDraw_eq, h.complete, mapNext]

end

/-! ## No draw depends on a seed (R51, R197) -/

/-- The seed a pseudo-random generator was last given, and the write that is held, replaced; the count of draws stays. -/
def withSeeds (seed held : Option Word) (s : State) : State :=
  { s with entropy := ⟨seed, s.entropy.drawn⟩, heldSeed := held }

/-- The recorded seed replaced; the count of draws stays. -/
def withSeed (seed : Option Word) (s : State) : State := { s with entropy := ⟨seed, s.entropy.drawn⟩ }

/-- The seed recorded once a held write has been applied (R51). -/
def seedAfter (p : Params) (seed held : Option Word) : Option Word :=
  if p.entropySource = .pseudoRandom then held.or seed else seed

/-- The end of a completion step (R115, R223) as one update of the state. -/
theorem finishCommand_eq (s : State) : finishCommand s = { s with
    done := true
    inflight := none
    heldSeed := none
    entropy := ⟨seedAfter s.params s.entropy.seed s.heldSeed, s.entropy.drawn⟩ } := by
  cases hh : s.heldSeed with
  | none => simp [finishCommand, applyHeldSeed, seedAfter, hh]
  | some v =>
    cases hs : s.params.entropySource <;> simp [finishCommand, applyHeldSeed, applySeed, seedAfter, hh, hs]

theorem finishCommand_withSeeds (seed held : Option Word) (s : State) :
    finishCommand (withSeeds seed held s) = withSeed (seedAfter s.params seed held) (finishCommand s) := by
  simp only [finishCommand_eq, withSeeds, withSeed]

theorem recordError_withSeeds (e : ErrCode) (seed held : Option Word) (s : State) :
    recordError e (withSeeds seed held s) = withSeeds seed held (recordError e s) := by
  cases hv : s.errValid <;> simp [recordError, withSeeds, hv]

theorem completesAlike_withSeeds (seed held : Option Word) (s : State) :
    CompletesAlike (withSeed (seedAfter s.params seed held)) s (withSeeds seed held s) where
  params := rfl
  inflight := rfl
  poly := rfl
  drawn := rfl
  fail e := by simp only [failCommand, recordError_withSeeds, finishCommand_withSeeds, recordError_params]
  complete rd result draws := finishCommand_withSeeds seed held
    { takeDraws draws s with poly := writeCells s.params rd 0 result s.poly }

/-! ## The statements of 10_state.md -/

/-- Settles O33, register by register: the fields of the words read, then the congruence of the writes. -/
theorem reservedBitsReadZero : Obligations.ReservedBitsReadZero := by
  intro s hwf
  obtain ⟨-, hparam, -, hparam'⟩ := bits_paramWord hwf
  obtain ⟨-, -, -, hstatus, -, hstatus'⟩ := bits_statusWord s
  exact ⟨(bits_ctrlWord s).2, hstatus, hstatus', hparam, hparam', fun _ _ => writeCtrl_congr s,
    fun _ _ => writeStatus_congr s, fun _ => rfl, fun v _ => readReg_writeReg_config s v⟩

/-- Settles O40: the three cases of a SEED write, then `exec_mapNext` for the state with other seeds. -/
theorem seedWriteIsHeldWhileBusy : Obligations.SeedWriteIsHeldWhileBusy := by
  have hwrite (s : State) (v : Word) : hostAccess (writeAt 0x070 v) s = .next (respondNone (writeSeed v s)) :=
    hostAccess_writeReg s .seed v
  refine ⟨fun s v hp => ⟨fun hb => ?_, fun hi => ?_⟩, fun s v hp => ?_, fun i s t seed held hx => ?_⟩
  · rw [hwrite, writeSeed_busy v hp hb]; rfl
  · rw [hwrite, writeSeed_idle v hp hi]; rfl
  · rw [hwrite, writeSeed_without_generator v hp]; rfl
  · have halike := exec_mapNext (completesAlike_withSeeds seed held s) i
    rw [hx] at halike
    exact ⟨_, halike⟩

/-- Settles O36 from the fields of CTRL and STATUS, and from DONE at the end of every completion. -/
theorem completionRaisesIrq : Obligations.CompletionRaisesIrq := by
  have hctrl (s : State) : bits (readReg s .ctrl) 0 0 = 1 ↔ s.ie = true := by
    simp [readReg, bits_ctrlWord]
  refine ⟨fun s => ?_, hctrl, fun s t hb h => ?_⟩
  · obtain ⟨-, hdone, hvalid, -⟩ := bits_statusWord s
    rw [hctrl, irq_eq_true_iff]
    simp [readReg, hdone, hvalid]
  · obtain ⟨hdone, hie⟩ := engineTurn_done_ie hb h
    simp [irq, hdone, hie]

/-- Settles O39: each access is a read or a write of the register at that offset. -/
theorem readOnlyRegisters : Obligations.ReadOnlyRegisters := by
  intro s v
  refine ⟨hostAccess_readReg s .id, hostAccess_writeReg s .id v, hostAccess_writeReg s .param v,
    hostAccess_readReg s .seed, fun hwf => ?_⟩
  obtain ⟨hlog, hres, hnreg, hres'⟩ := bits_paramWord hwf
  refine ⟨paramWord s.params, hostAccess_readReg s .param, hlog, hres, hnreg, hres', fun hl hr => ?_⟩
  simp [paramWord, hl, hr]

/-- Settles O48 by the frame of a read and by the answer of a register read. -/
theorem hostReadsHaveNoSideEffects : Obligations.HostReadsHaveNoSideEffects :=
  ⟨fun _ _ _ => hostAccess_read_frame, hostAccess_readReg, fun s =>
    ⟨hostAccess_readReg s .ctrl, hostAccess_readReg s .status, hostAccess_readReg s .cmd, hostAccess_readReg s .n,
      hostAccess_readReg s .q, hostAccess_readReg s .t, hostAccess_readReg s .scalar, hostAccess_readReg s .exp,
      hostAccess_readReg s .std, hostAccess_readReg s .gbound, hostAccess_readReg s .umin, hostAccess_readReg s .umax⟩⟩

end Sys2Proof.Machine

namespace Sys2Proof.Machine

/-! ## The cells of the window (R70, R71) -/

theorem nmax_pos (p : Params) : 0 < p.nmax := Nat.two_pow_pos _

/-- The cells of the window follow one another from 0x1000 on, NREG * NMAX of them (R70). -/
theorem isCellOffset_iff {p : Params} {off : Nat} :
    IsCellOffset p off ↔ ∃ k < p.nreg * p.nmax, off = 0x1000 + 8 * k := by
  unfold IsCellOffset windowSize
  rw [Nat.mul_assoc]
  constructor
  · rintro ⟨hlo, hhi, halign⟩
    exact ⟨(off - 0x1000) / 8, by omega, by omega⟩
  · rintro ⟨k, hk, rfl⟩
    omega

/-- Each cell of a register that exists lies in the window (R71). -/
theorem isCellOffset_cellOffset {p : Params} {r i : Nat} (hr : r < p.nreg) (hi : i < p.nmax) :
    IsCellOffset p (cellOffset p r i) := by
  refine isCellOffset_iff.2 ⟨r * p.nmax + i, ?_, rfl⟩
  calc r * p.nmax + i < r * p.nmax + p.nmax := by omega
    _ = (r + 1) * p.nmax := (Nat.succ_mul _ _).symm
    _ ≤ p.nreg * p.nmax := Nat.mul_le_mul_right _ hr

/-- Each offset of the window is that of a cell (R70, R71): cell number `k` of the window is cell `k % NMAX` of register
`k / NMAX`. -/
theorem exists_eq_cellOffset {p : Params} {off : Nat} (h : IsCellOffset p off) :
    ∃ r i, r < p.nreg ∧ i < p.nmax ∧ off = cellOffset p r i := by
  obtain ⟨k, hk, rfl⟩ := isCellOffset_iff.1 h
  refine ⟨k / p.nmax, k % p.nmax, Nat.div_lt_of_lt_mul (by rwa [Nat.mul_comm]), Nat.mod_lt _ (nmax_pos p), ?_⟩
  rw [cellOffset, Nat.div_add_mod']

/-- The offsets of two cells differ (R71): the quotient and the remainder by NMAX are the register and the index. -/
theorem cellOffset_inj {p : Params} {r i r' i' : Nat} (hi : i < p.nmax) (hi' : i' < p.nmax)
    (h : cellOffset p r i = cellOffset p r' i') : r = r' ∧ i = i' := by
  have hk : r * p.nmax + i = r' * p.nmax + i' := by unfold cellOffset at h; omega
  have hr : r = r' := by
    have hdiv := congrArg (· / p.nmax) hk
    simpa [Nat.mul_comm _ p.nmax, Nat.mul_add_div (nmax_pos p), Nat.div_eq_of_lt hi, Nat.div_eq_of_lt hi'] using hdiv
  subst hr
  exact ⟨rfl, cellOffset_inj_index h⟩

/-! ## An access to a cell (R77 to R79) -/

/-- The engine owns the cells while a command is in flight (R79). -/
theorem accessCell_busy {s : State} (off : Nat) (k : AccessKind) (hb : s.inflight ≠ none) :
    accessCell s off k = .fault .polyAccessWhileBusy := by
  simp [accessCell, busy, Option.isSome_iff_ne_none.2 hb]

/-- A read of a cell that is `undef` (R77). -/
theorem accessCell_read_undef {s : State} {off : Nat} (hi : s.inflight = none) (h : polyRead s.poly off = none) :
    accessCell s off .read = .fault .readUndefHost := by
  simp [accessCell, busy, hi, h]

/-- A read of a cell that holds a word (R77). -/
theorem accessCell_read_word {s : State} {off : Nat} {w : Word} (hi : s.inflight = none)
    (h : polyRead s.poly off = some w) : accessCell s off .read = .next (respond w s) := by
  simp [accessCell, busy, hi, h]

/-- A write of a cell (R78). -/
theorem accessCell_write {s : State} (off : Nat) (v : Word) (hi : s.inflight = none) :
    accessCell s off (.write v) = .next (respondNone { s with poly := polyWrite s.poly off v }) := by
  simp [accessCell, busy, hi]

theorem cell_eq_none_iff {s : State} {r i : Nat} :
    cell s r i = none ↔ polyRead s.poly (cellOffset s.params r i) = none := Option.map_eq_none_iff

/-- A cell holds an integer exactly as its pattern (R21, R17). -/
theorem polyRead_of_cell {s : State} {r i : Nat} {v : Int} (h : cell s r i = some v) :
    polyRead s.poly (cellOffset s.params r i) = some (enc64 v) := by
  obtain ⟨w, hw, rfl⟩ := Option.map_eq_some_iff.1 h
  rw [enc64_sext64, hw]

/-! ## What a bus error is (R72, R74) -/

/-- The registers stand at all the multiples of 8 below 0x078, and nowhere else (R35). -/
theorem regAt_eq_none_iff {off : Nat} (halign : off % 8 = 0) : regAt off = none ↔ 0x078 ≤ off := by
  constructor
  · intro hnone
    by_contra hlt
    have hsome : ∀ k < 15, regAt (8 * k) ≠ none := by decide
    exact hsome (off / 8) (by omega) (by rwa [show 8 * (off / 8) = off by omega])
  · intro hge
    by_contra hsome
    obtain ⟨r, hr⟩ := Option.ne_none_iff_exists'.1 hsome
    have := (regOffset_lt r).1
    have := eq_regOffset_of_regAt hr
    omega

/-- What names nothing: the reserved offsets, and those beyond the window (R74). -/
theorem targetOf_eq_nothing_iff {p : Params} {off : Nat} (halign : off % 8 = 0) :
    targetOf p off = .nothing ↔ (0x078 ≤ off ∧ off < 0x1000) ∨ windowSize p ≤ off := by
  have hwindow : 0x1000 ≤ windowSize p := Nat.le_add_right _ _
  unfold targetOf
  split
  · rename_i hlow
    have hreserved := regAt_eq_none_iff halign
    cases hreg : regAt off with
    | some r =>
      simp only [hreg, reduceCtorEq, false_iff] at hreserved ⊢
      omega
    | none =>
      simp only [hreg, true_iff] at hreserved ⊢
      omega
  · split
    · simp only [reduceCtorEq, false_iff]
      omega
    · simp only [true_iff]
      omega

theorem legalForm_eq_false_iff (a : Access) :
    legalForm a = false ↔ a.width ≠ .w64 ∨ a.offset % 8 ≠ 0 ∨ a.lanes ≠ 0xFF := by
  simp only [legalForm, Bool.and_eq_false_iff, decide_eq_false_iff_not, or_assoc, ne_eq]

theorem accessReg_ne_fault (s : State) (r : Reg) (k : AccessKind) (f : Fault) : accessReg s r k ≠ .fault f := by
  cases k <;> simp [accessReg]

theorem accessCell_ne_busError (s : State) (off : Nat) (k : AccessKind) : accessCell s off k ≠ .fault .busError := by
  by_cases hb : s.inflight = none
  · cases k with
    | read =>
      cases hw : polyRead s.poly off with
      | none => simp [accessCell_read_undef hb hw]
      | some w => simp [accessCell_read_word hb hw]
    | write v => simp [accessCell_write off v hb]
  · simp [accessCell_busy off k hb]

/-- An access is a bus error for its form or for naming nothing (R72, R74); what it names never answers one. -/
theorem hostAccess_eq_busError_iff (a : Access) (s : State) :
    hostAccess a s = .fault .busError ↔ legalForm a = false ∨ targetOf s.params a.offset = .nothing := by
  cases hform : legalForm a with
  | false => simp [hostAccess, hform]
  | true => cases htarget : targetOf s.params a.offset <;>
      simp [hostAccess, hform, htarget, accessReg_ne_fault, accessCell_ne_busError]

/-! ## The statements of 20_memory.md -/

/-- Settles O43 by the numbering of the window's cells, NMAX to a register. -/
theorem cellOffsetsFillTheWindow : Obligations.CellOffsetsFillTheWindow := by
  intro p
  refine ⟨fun r i hr hi => ?_, fun _ _ _ _ => cellOffset_inj, fun _ => exists_eq_cellOffset, targetOf_regOffset p,
    by decide, by decide⟩
  have hcell := isCellOffset_cellOffset hr hi
  exact ⟨rfl, hcell, targetOf_cell hcell⟩

/-- Settles O44: the three answers of `accessCell` to a read. -/
theorem hostReadsCell : Obligations.HostReadsCell := by
  intro s r i hr hi
  rw [hostAccess_readCell s (isCellOffset_cellOffset hr hi)]
  exact ⟨accessCell_busy _ _, fun hidle hundef => accessCell_read_undef hidle (cell_eq_none_iff.1 hundef),
    fun v hidle hv => accessCell_read_word hidle (polyRead_of_cell hv)⟩

/-- Settles O45: the two answers of `accessCell` to a write, then read after write. -/
theorem hostWritesCell : Obligations.HostWritesCell := by
  intro s r i v hr hi
  rw [hostAccess_writeCell s v (isCellOffset_cellOffset hr hi)]
  refine ⟨accessCell_busy _ _, fun hidle => ⟨_, accessCell_write _ v hidle, ?_, fun off hoff => ?_, rfl⟩⟩
  · simp [cell, respondNone]
  · exact polyRead_polyWrite_other _ v hoff

/-- Settles O46: both kinds of access reach the same cell, which is the engine's. -/
theorem cellAccessWhileBusyFaults : Obligations.CellAccessWhileBusyFaults := by
  intro s off v hb hoff
  rw [hostAccess_readCell s hoff, hostAccess_writeCell s v hoff]
  exact ⟨accessCell_busy _ _ hb, accessCell_busy _ _ hb⟩

/-- Settles O47: an access of illegal form is one by its form; an access of legal form is at a multiple of 8, where
`targetOf_eq_nothing_iff` says what names nothing. -/
theorem busErrorsExactly : Obligations.BusErrorsExactly := by
  intro s a
  rw [hostAccess_eq_busError_iff, legalForm_eq_false_iff]
  by_cases halign : a.offset % 8 = 0
  · simp only [targetOf_eq_nothing_iff halign, or_assoc]
  · simp [halign]

end Sys2Proof.Machine

namespace Sys2Proof.Machine

/-! ## Which words are illegal (R106, R107) -/

/-- A word of an assigned opcode is illegal exactly when a field it does not use is not 0 (R106). -/
theorem toInstr?_ifUnusedZero_eq_none_iff (zero : Bool) (i : Instr) :
    toInstr? (ifUnusedZero zero i) = none ↔ zero = false := by
  cases zero <;> simp [ifUnusedZero, toInstr?]

/-- The decoder finds no command exactly in the words that R106 and R107 call illegal: the reserved bits come first, then
the opcode says which fields are unused. -/
theorem toInstr?_decode_eq_none_iff (w : Word) : toInstr? (decode w) = none ↔ IllegalWord w := by
  unfold decode IllegalWord
  by_cases hres : bits w 63 18 = 0
  · simp only [hres, if_true, ne_eq, not_true, false_or]
    split
    case h_8 h1 h2 h3 h4 h5 h6 h7 =>
      simp only [imp_false] at h1 h2 h3 h4 h5 h6 h7
      have hop : bits w 3 0 = 0 ∨ 8 ≤ bits w 3 0 := by omega
      exact iff_of_true rfl (hop.elim .inl fun h => .inr (.inl h))
    all_goals
      rename_i hop
      rw [toInstr?_ifUnusedZero_eq_none_iff]
      simp [hop, imp_iff_not_or, or_assoc]
  · simp [hres, toInstr?]

/-! ## How a command fails (R220, R223) -/

/-- The effect of `failCommand` is the whole effect of a failure that R220, R223 and R225 name. -/
theorem failsWith_failCommand (e : ErrCode) (s : State) : FailsWith s (.next (failCommand e s)) e :=
  ⟨_, rfl, failCommand_poly e s, by simp, failCommand_errValid e s, failCommand_err e s,
    by simp [SameOutsideEngine], by simp [CommandOver, busy]⟩

theorem step_of_takeTurn_engine {s s' : State} (h : takeTurn s = (.engine, s')) : step s = engineTurn exec s' := by
  simp only [step, h]

theorem engineTurn_of_decode_illegal {run : Instr → State → Host.Outcome State Fault Refusal} {s : State} {l : InFlight}
    {why : Illegal} (hl : s.inflight = some l) (hd : decode l.cmd = .illegal why) :
    engineTurn run s = .next (failCommand .illegalCmd s) := by
  simp only [engineTurn, hl, hd]

/-! ## A CMD write (R114, R224) -/

/-- Recording an error as one update of the state (R225). -/
theorem recordError_eq (e : ErrCode) (s : State) :
    recordError e s = { s with errValid := true, err := if s.errValid then s.err else e } := by
  unfold recordError
  split
  case isTrue hv => rw [← hv]
  case isFalse => rfl

theorem writeCmd_idle {s : State} (w : Word) (hi : s.inflight = none) : writeCmd w s = acceptCommand w s := by
  simp only [writeCmd, hi]

theorem writeCmd_busy {s : State} (w : Word) (hb : s.inflight ≠ none) : writeCmd w s = recordError .busy s := by
  obtain ⟨l, hl⟩ := Option.ne_none_iff_exists'.1 hb
  simp only [writeCmd, hl]

/-! ## The statements of 30_encoding.md -/

/-- Settles O5: `toInstr?_decode_eq_none_iff` says for which words the decoder answers ILLEGAL, and the engine's turn ends
these with ILLEGAL_CMD. -/
theorem illegalWordsFail : Obligations.IllegalWordsFail := by
  intro s s' l hturn hl
  rw [← toInstr?_decode_eq_none_iff, step_of_takeTurn_engine hturn]
  cases hd : decode l.cmd with
  | cmd i => exact ⟨nofun, fun _ => ⟨i, rfl⟩⟩
  | illegal why =>
    rw [engineTurn_of_decode_illegal hl hd]
    exact ⟨fun _ => failsWith_failCommand _ _, fun hlegal => absurd rfl hlegal⟩

/-- Settles O37: the access is a write of the register CMD, which accepts the word or records BUSY. -/
theorem cmdWriteAcceptsOrRejects : Obligations.CmdWriteAcceptsOrRejects := by
  intro s w
  have hwrite : hostAccess (writeAt 0x020 w) s = .next (respondNone (writeCmd w s)) := hostAccess_writeReg s .cmd w
  rw [hwrite]
  refine ⟨fun hi => ?_, fun hb => ?_⟩
  · rw [writeCmd_idle w hi]; rfl
  · rw [writeCmd_busy w hb, recordError_eq]; rfl

end Sys2Proof.Machine

namespace Sys2Proof.Machine

/-! ## The centered representative (R130, R131) -/

/-- Centering subtracts M or nothing from the canonical residue, so it stays in the residue class. -/
theorem center_modEq (v M : Int) : center v M ≡ v [ZMOD M] := by
  have hresidue : emod v M ≡ v [ZMOD M] := Int.mod_modEq v M
  unfold center
  split
  · exact Int.sub_modulus_modEq_iff.mpr hresidue
  · exact hresidue

/-- The interval (-M/2, M/2] of R131, doubled so that it is exact for odd M. -/
theorem center_bounds (v : Int) {M : Int} (hM : 1 ≤ M) : -M < 2 * center v M ∧ 2 * center v M ≤ M := by
  have hnonneg := emod_nonneg v hM
  have hlt := emod_lt v hM
  unfold center
  split <;> omega

/-- Congruent integers are centered alike: `center` reads only the canonical residue. -/
theorem center_congr {u v M : Int} (h : u ≡ v [ZMOD M]) : center u M = center v M := by
  have hresidue : emod u M = emod v M := h
  simp only [center, hresidue]

/-- Two integers of (-M/2, M/2] in one residue class are equal: they differ by less than M. -/
theorem eq_center_of_modEq {c v M : Int} (h : c ≡ v [ZMOD M]) (hlo : -M < 2 * c) (hhi : 2 * c ≤ M) :
    c = center v M := by
  obtain ⟨hlo', hhi'⟩ := center_bounds v (M := M) (by omega)
  have hdvd : M ∣ c - center v M := ((center_modEq v M).trans h.symm).dvd
  have habs : |c - center v M| < M := abs_lt.mpr ⟨by omega, by omega⟩
  exact sub_eq_zero.mp (Int.eq_zero_of_abs_lt_dvd hdvd habs)

/-- The fixed points of centering are the integers of its interval (R132). -/
theorem center_eq_self_iff {v M : Int} (hM : 1 ≤ M) : center v M = v ↔ -M < 2 * v ∧ 2 * v ≤ M := by
  constructor
  · intro h
    simpa only [h] using center_bounds v hM
  · rintro ⟨hlo, hhi⟩
    exact (eq_center_of_modEq (Int.ModEq.refl v) hlo hhi).symm

/-! ## The statements of 40_reduction.md -/

/-- Settles O6: `center_bounds` gives the interval, of which the range clauses are the integer form, and
`eq_center_of_modEq` the uniqueness. -/
theorem centerIsUniqueCenteredResidue : Obligations.CenterIsUniqueCenteredResidue := by
  intro v M hM
  obtain ⟨hlo, hhi⟩ := center_bounds v hM
  have hcongr : M ∣ center v M - v := (center_modEq v M).symm.dvd
  refine ⟨⟨hcongr, hlo, hhi⟩, fun c hc => ?unique, fun hodd => ?odd, fun heven => ?even, fun hone => ?one,
    fun hlegal => ?legal⟩
  case unique => exact eq_center_of_modEq (Int.modEq_of_dvd hc).symm
  case odd => omega
  case even =>
    have hhalf : center (M / 2) M = M / 2 := (center_eq_self_iff hM).mpr (by omega)
    exact ⟨by omega, by omega, hhalf⟩
  case one => omega
  case legal => omega

/-- Settles O7: each law but the fixed points is a congruence, which `center_congr` turns into an equation. -/
theorem centerLaws : Obligations.CenterLaws := by
  intro u v k M hM
  have hu := (center_modEq u M).symm
  have hv := (center_modEq v M).symm
  have hperiod : v + k * M ≡ v [ZMOD M] := Int.add_mul_emod_self_right v k M
  exact ⟨center_congr hv.symm, center_congr hperiod, center_eq_self_iff hM, center_congr (hu.add hv),
    center_congr (hu.mul hv)⟩

end Sys2Proof.Machine

namespace Sys2Proof.Machine

/-! ## Coefficient lists as polynomials (R20, R150)

The ring statements are about lists of coefficients. Read as a Mathlib polynomial, a list has the same coefficients, the
raw product is the product, and the degree of R20 is the degree. -/

/-- The polynomial with the coefficients of a list, constant term first (R20). -/
noncomputable def toPoly : List Int → Polynomial ℤ
  | [] => 0
  | x :: xs => Polynomial.C x + Polynomial.X * toPoly xs

@[simp] theorem coeff_toPoly (a : List Int) (k : Nat) : (toPoly a).coeff k = coeff a k := by
  induction a generalizing k with
  | nil => simp [toPoly]
  | cons x xs ih =>
    cases k with
    | zero => simp [toPoly]
    | succ k => rw [toPoly, Polynomial.coeff_add, Polynomial.coeff_C_succ, Polynomial.coeff_X_mul, ih, zero_add,
        coeff_cons_succ]

/-- Two lists are one polynomial when they agree on every coefficient; their lengths may differ. -/
theorem toPoly_eq_iff (a b : List Int) : toPoly a = toPoly b ↔ ∀ k, coeff a k = coeff b k := by
  simp [Polynomial.ext_iff]

theorem coeff_toPoly_mul (a b : List Int) (k : Nat) : (toPoly a * toPoly b).coeff k = convCoeff a b k := by
  rw [Polynomial.coeff_mul, Finset.Nat.sum_antidiagonal_eq_sum_range_succ_mk]
  simp only [coeff_toPoly]
  rfl

/-- The equation of R151, coefficient by coefficient, is an equation between polynomials. -/
theorem toPoly_eq_mul_add_iff (num quot den rem : List Int) :
    toPoly num = toPoly quot * toPoly den + toPoly rem ↔ ∀ k, coeff num k = convCoeff quot den k + coeff rem k := by
  simp [Polynomial.ext_iff, coeff_toPoly_mul]

theorem degSucc_of_deg_nonneg {a : List Int} (h : 0 ≤ deg a) : degSucc a = (deg a).toNat + 1 := by
  unfold deg at h ⊢
  omega

theorem deg_lt_natCast_iff {a : List Int} {n : Nat} : deg a < n ↔ degSucc a ≤ n := by
  unfold deg
  omega

/-- A list's `degSucc` is the least bound of the indices with a nonzero coefficient. -/
theorem degSucc_le_iff {a : List Int} {n : Nat} : degSucc a ≤ n ↔ ∀ i, n ≤ i → coeff a i = 0 := by
  refine ⟨fun h i hi => coeff_of_degSucc_le (h.trans hi), fun h => ?_⟩
  by_contra hlt
  obtain ⟨k, hk⟩ : ∃ k, degSucc a = k + 1 := ⟨degSucc a - 1, by omega⟩
  exact coeff_degSucc_ne_zero hk (h k (by omega))

theorem degree_toPoly_lt_iff {a : List Int} {n : Nat} : (toPoly a).degree < n ↔ degSucc a ≤ n := by
  simp only [Polynomial.degree_lt_iff_coeff_zero, coeff_toPoly, degSucc_le_iff]

theorem degree_toPoly {a : List Int} (h : 0 ≤ deg a) : (toPoly a).degree = (deg a).toNat := by
  have hk := degSucc_of_deg_nonneg h
  refine Polynomial.degree_eq_of_le_of_coeff_ne_zero ?_ (by simpa using coeff_degSucc_ne_zero hk)
  rw [Polynomial.degree_le_iff_coeff_zero]
  intro i hi
  rw [coeff_toPoly]
  exact coeff_of_degSucc_le (by rw [hk]; exact_mod_cast hi)

/-- The comparison of degrees that ends the long division, for a divisor that is not 0. -/
theorem degree_toPoly_lt_degree_iff {a b : List Int} (hb : 0 ≤ deg b) :
    (toPoly a).degree < (toPoly b).degree ↔ deg a < deg b := by
  rw [degree_toPoly hb, degree_toPoly_lt_iff, ← deg_lt_natCast_iff, Int.toNat_of_nonneg hb]

theorem monic_toPoly {a : List Int} (h : 0 ≤ deg a) (hlead : coeff a (deg a).toNat = 1) : (toPoly a).Monic :=
  Polynomial.monic_of_degree_le _ (degree_toPoly h).le (by rwa [coeff_toPoly])

/-! ## One pass of the long division (R151) -/

/-- The shifted divisor fits into the remainder's list, so no term of the subtraction is cut off. -/
theorem coeff_subShifted {rem den : List Int} {k : Nat} (c : Int) (hfit : k + degSucc den ≤ rem.length) (t : Nat) :
    coeff (subShifted rem den c k) t = coeff rem t - if k ≤ t then c * coeff den (t - k) else 0 := by
  rcases lt_or_ge t rem.length with ht | ht
  · rw [subShifted, coeff_map_range _ ht]
    split <;> simp
  · have hden : coeff den (t - k) = 0 := coeff_of_degSucc_le (by omega)
    rw [coeff_of_le (by simpa using ht), coeff_of_le ht, hden]
    simp

theorem toPoly_subShifted {rem den : List Int} {k : Nat} (c : Int) (hfit : k + degSucc den ≤ rem.length) :
    toPoly (subShifted rem den c k) = toPoly rem - Polynomial.monomial k c * toPoly den := by
  ext t
  rw [← Polynomial.C_mul_X_pow_eq_monomial, mul_assoc, Polynomial.coeff_sub, Polynomial.coeff_C_mul,
    Polynomial.coeff_X_pow_mul']
  simp [coeff_subShifted c hfit]

theorem toPoly_set_add {quot : List Int} {k : Nat} (c : Int) (hk : k < quot.length) :
    toPoly (quot.set k (coeff quot k + c)) = toPoly quot + Polynomial.monomial k c := by
  ext t
  rw [coeff_toPoly, Polynomial.coeff_add, coeff_toPoly, Polynomial.coeff_monomial]
  by_cases h : k = t
  · subst h
    simp [coeff, hk]
  · simp [coeff, h]

/-- Subtracting the leading coefficient's multiple of a monic divisor eliminates the remainder's leading term. -/
theorem degSucc_subShifted_le {rem den : List Int} {d top : Nat} (hd : degSucc den = d + 1) (hlead : coeff den d = 1)
    (htop : degSucc rem = top + 1) (hle : d ≤ top) :
    degSucc (subShifted rem den (coeff rem top) (top - d)) ≤ top := by
  have hlen := degSucc_le_length rem
  rw [degSucc_le_iff]
  intro i hi
  rw [coeff_subShifted _ (by omega), if_pos (by omega)]
  rcases hi.eq_or_lt with rfl | hlt
  · rw [Nat.sub_sub_self hle, hlead, mul_one, sub_self]
  · rw [coeff_of_degSucc_le (a := rem) (by omega), coeff_of_degSucc_le (a := den) (by omega)]
    simp

/-! ## The loop of the long division (R151) -/

/-- Every pass keeps quot*den + rem. The quotient is long enough for every index the loop writes. -/
theorem toPoly_divLoop {den : List Int} {d : Nat} (hd : degSucc den = d + 1) (fuel : Nat) (quot rem : List Int)
    (hlen : rem.length - d ≤ quot.length) :
    toPoly (divLoop den d fuel quot rem).1 * toPoly den + toPoly (divLoop den d fuel quot rem).2 =
      toPoly quot * toPoly den + toPoly rem := by
  induction fuel generalizing quot rem with
  | zero => rfl
  | succ fuel ih =>
    simp only [divLoop]
    split
    case isTrue hle =>
      have htop := degSucc_of_deg_nonneg (a := rem) (by omega)
      have hbound := degSucc_le_length rem
      rw [ih _ _ (by simpa using hlen), toPoly_set_add _ (by omega), toPoly_subShifted _ (by omega)]
      ring
    case isFalse => rfl

/-- The fuel is never used up: every pass lowers the remainder's degree, so the loop ends below the divisor's. -/
theorem degSucc_divLoop_le {den : List Int} {d : Nat} (hd : degSucc den = d + 1) (hlead : coeff den d = 1)
    (fuel : Nat) (quot rem : List Int) (hfuel : degSucc rem ≤ fuel) :
    degSucc (divLoop den d fuel quot rem).2 ≤ d := by
  induction fuel generalizing quot rem with
  | zero => exact hfuel.trans (Nat.zero_le d)
  | succ fuel ih =>
    simp only [divLoop]
    split
    case isTrue hle =>
      have htop := degSucc_of_deg_nonneg (a := rem) (by omega)
      have hpass := degSucc_subShifted_le hd hlead htop (by omega)
      exact ih _ _ (by omega)
    case isFalse hlt => exact deg_lt_natCast_iff.mp (not_le.mp hlt)

/-! ## Long division by a monic divisor (R151) -/

@[simp] theorem toPoly_replicate_zero (n : Nat) : toPoly (List.replicate n 0) = 0 := by
  induction n with
  | zero => rfl
  | succ n ih => simp [List.replicate_succ, toPoly, ih]

section
variable {den : List Int} (hpos : 0 ≤ deg den) (hlead : coeff den (deg den).toNat = 1)
include hpos

theorem toPoly_polydiv (num : List Int) :
    toPoly num = toPoly (polydiv num den).1 * toPoly den + toPoly (polydiv num den).2 := by
  rw [polydiv, toPoly_divLoop (degSucc_of_deg_nonneg hpos) _ _ _ (by simp)]
  simp

include hlead

theorem deg_polydiv_lt (num : List Int) : deg (polydiv num den).2 < deg den := by
  rw [← Int.toNat_of_nonneg hpos, deg_lt_natCast_iff]
  exact degSucc_divLoop_le (degSucc_of_deg_nonneg hpos) hlead _ _ _ (degSucc_le_length num)

/-- Any quotient and remainder that meet R151 are those of Mathlib's division, so there is only one of each. -/
theorem toPoly_eq_divByMonic {num quot rem : List Int} (heq : toPoly num = toPoly quot * toPoly den + toPoly rem)
    (hdeg : deg rem < deg den) :
    toPoly quot = toPoly num /ₘ toPoly den ∧ toPoly rem = toPoly num %ₘ toPoly den := by
  have heq' : toPoly rem + toPoly den * toPoly quot = toPoly num := by rw [heq, add_comm, mul_comm]
  obtain ⟨hquot, hrem⟩ := Polynomial.div_modByMonic_unique _ _ (monic_toPoly hpos hlead)
    ⟨heq', (degree_toPoly_lt_degree_iff hpos).mpr hdeg⟩
  exact ⟨hquot.symm, hrem.symm⟩

theorem coeff_eq_coeff_polydiv {num quot rem : List Int} (heq : ∀ k, coeff num k = convCoeff quot den k + coeff rem k)
    (hdeg : deg rem < deg den) :
    (∀ k, coeff quot k = coeff (polydiv num den).1 k) ∧ ∀ k, coeff rem k = coeff (polydiv num den).2 k := by
  rw [← toPoly_eq_mul_add_iff] at heq
  obtain ⟨hquot, hrem⟩ := toPoly_eq_divByMonic hpos hlead heq hdeg
  obtain ⟨hquot', hrem'⟩ := toPoly_eq_divByMonic hpos hlead (toPoly_polydiv hpos num)
    (deg_polydiv_lt hpos hlead num)
  exact ⟨(toPoly_eq_iff _ _).mp (hquot.trans hquot'.symm), (toPoly_eq_iff _ _).mp (hrem.trans hrem'.symm)⟩

end

theorem length_polydiv_fst (num den : List Int) :
    (polydiv num den).1.length = max 1 (num.length - (deg den).toNat) := by
  rw [polydiv, (length_divLoop _ _ _ _ _).1, List.length_replicate]

/-! ## Ring reduction by x^N + 1 (R152, R153) -/

theorem toPoly_append (a b : List Int) : toPoly (a ++ b) = toPoly a + Polynomial.X ^ a.length * toPoly b := by
  induction a with
  | nil => simp [toPoly]
  | cons x xs ih =>
    rw [List.cons_append, toPoly, toPoly, ih, List.length_cons]
    ring

/-- The polynomial f of R20. -/
theorem toPoly_ringPoly {n : Nat} (h : 1 ≤ n) : toPoly (ringPoly n) = Polynomial.X ^ n + 1 := by
  have hone : toPoly [1] = 1 := by simp [toPoly]
  rw [ringPoly, toPoly, toPoly_append, toPoly_replicate_zero, List.length_replicate, hone, zero_add, mul_one,
    mul_pow_sub_one (by omega), Polynomial.C_1, add_comm]

theorem degSucc_append_of_ne_zero (a : List Int) {x : Int} (hx : x ≠ 0) : degSucc (a ++ [x]) = a.length + 1 := by
  induction a with
  | nil => simp [degSucc, hx]
  | cons y ys ih => simp [degSucc, ih]

theorem deg_ringPoly {n : Nat} (h : 1 ≤ n) : deg (ringPoly n) = n := by
  rw [deg, ringPoly, ← List.cons_append, degSucc_append_of_ne_zero _ one_ne_zero, List.length_cons,
    List.length_replicate]
  omega

theorem coeff_ringPoly_self {n : Nat} (h : 1 ≤ n) : coeff (ringPoly n) n = 1 := by
  rw [← coeff_toPoly, toPoly_ringPoly h, Polynomial.coeff_add, Polynomial.coeff_X_pow_self,
    Polynomial.coeff_one, if_neg (by omega), add_zero]

theorem coeff_drop (c : List Int) (n i : Nat) : coeff (c.drop n) i = coeff c (i + n) := by
  simp [coeff, add_comm]

/-- The closed form of R153, which reads a coefficient beyond the list as 0. -/
def negacyclicFold (c : List Int) (n : Nat) : List Int :=
  (List.range n).map fun i => coeff c i - coeff c (i + n)

theorem deg_negacyclicFold_lt (c : List Int) (n : Nat) : deg (negacyclicFold c n) < n := by
  rw [deg_lt_natCast_iff]
  simpa [negacyclicFold] using degSucc_le_length (negacyclicFold c n)

/-- Because x^N = -1 modulo f, the upper half of `c` is a quotient and the fold a remainder. -/
theorem toPoly_eq_drop_mul_add_negacyclicFold {c : List Int} {n : Nat} (hlen : c.length ≤ 2 * n) :
    toPoly c = toPoly (c.drop n) * (Polynomial.X ^ n + 1) + toPoly (negacyclicFold c n) := by
  ext k
  rw [mul_add, mul_one, Polynomial.coeff_add, Polynomial.coeff_add, Polynomial.coeff_mul_X_pow']
  simp only [coeff_toPoly, coeff_drop]
  rcases lt_or_ge k n with hk | hk
  · rw [if_neg (by omega), negacyclicFold, coeff_map_range _ hk]
    ring
  · have hbeyond : coeff c (k + n) = 0 := coeff_of_le (by omega)
    have hfold : coeff (negacyclicFold c n) k = 0 := coeff_of_le (by simpa [negacyclicFold] using hk)
    rw [if_pos hk, Nat.sub_add_cancel hk, hbeyond, hfold, add_zero, add_zero]

/-- The long division of R152 computes the fold: the remainder is unique. -/
theorem ringred_eq_negacyclicFold {c : List Int} {n : Nat} (hn : 1 ≤ n) (hlen : c.length ≤ 2 * n) :
    ringred c n = negacyclicFold c n := by
  have hdeg := deg_ringPoly hn
  have hlead : coeff (ringPoly n) (deg (ringPoly n)).toNat = 1 := by
    rw [hdeg, Int.toNat_natCast, coeff_ringPoly_self hn]
  have heq : toPoly c = toPoly (c.drop n) * toPoly (ringPoly n) + toPoly (negacyclicFold c n) := by
    rw [toPoly_ringPoly hn, toPoly_eq_drop_mul_add_negacyclicFold hlen]
  obtain ⟨-, hrem⟩ := coeff_eq_coeff_polydiv (by omega) hlead ((toPoly_eq_mul_add_iff _ _ _ _).mp heq)
    (by rw [hdeg]; exact deg_negacyclicFold_lt c n)
  refine List.map_congr_left fun i hi => ?_
  rw [← hrem, negacyclicFold, coeff_map_range _ (List.mem_range.mp hi)]

theorem coeff_ringred {c : List Int} {n i : Nat} (hlen : c.length ≤ 2 * n) (hi : i < n) :
    coeff (ringred c n) i = coeff c i - coeff c (i + n) := by
  rw [ringred_eq_negacyclicFold (by omega) hlen, negacyclicFold, coeff_map_range _ hi]

/-! ## The statements of 41_ring_arith.md on long division and ring reduction -/

/-- Settles O8: the loop keeps quot*den + rem and ends below the divisor's degree, and division by a monic polynomial is
unique. -/
theorem longDivisionIsCorrect : Obligations.LongDivisionIsCorrect := by
  intro num den hpos hlead
  exact ⟨(toPoly_eq_mul_add_iff _ _ _ _).mp (toPoly_polydiv hpos num), deg_polydiv_lt hpos hlead num,
    length_polydiv_fst num den, fun _ _ => coeff_eq_coeff_polydiv hpos hlead⟩

/-- Settles O9: `coeff_ringred` is the fold, and at N - 1 its second term lies beyond the list. -/
theorem ringReductionIsNegacyclicFold : Obligations.RingReductionIsNegacyclicFold := by
  intro n c hn hlen
  have hfold {i : Nat} (hi : i < n) := coeff_ringred (c := c) (by omega) hi
  refine ⟨fun i hi => hfold (by omega), ?_⟩
  have hbeyond : coeff c (n - 1 + n) = 0 := coeff_of_le (by omega)
  rw [hfold (by omega), hbeyond, sub_zero]

end Sys2Proof.Machine

namespace Sys2Proof.Machine

/-! ## Bringing a free value into a range (R190, R195) -/

theorem intoRange_bounds {lo hi : Int} (h : lo ≤ hi) (raw : Int) :
    lo ≤ intoRange lo hi raw ∧ intoRange lo hi raw ≤ hi := by
  have hsize : 0 < hi - lo + 1 := by omega
  have hnonneg := Int.emod_nonneg (raw - lo) hsize.ne'
  have hlt := Int.emod_lt_of_pos (raw - lo) hsize
  unfold intoRange
  omega

theorem intoRange_of_mem {lo hi z : Int} (hlo : lo ≤ z) (hhi : z ≤ hi) : intoRange lo hi z = z := by
  rw [intoRange, Int.emod_eq_of_lt (by omega) (by omega)]
  omega

/-! ## A Gaussian draw (R192) -/

@[simp] theorem drawGauss_zero (bound : Nat) (raw : Int) : drawGauss 0 bound raw = 0 := rfl

theorem drawGauss_of_ne_zero {sigma : Nat} (h : sigma ≠ 0) (bound : Nat) (raw : Int) :
    drawGauss sigma bound raw = intoRange (-(bound : Int)) bound raw := if_neg h

theorem drawGauss_bounds (sigma bound : Nat) (raw : Int) :
    -(bound : Int) ≤ drawGauss sigma bound raw ∧ drawGauss sigma bound raw ≤ bound := by
  rcases eq_or_ne sigma 0 with rfl | hsigma
  · simp
  · rw [drawGauss_of_ne_zero hsigma]
    exact intoRange_bounds (by omega) raw

/-! ## The statement of 42_sampler.md on the range of a draw -/

/-- Settles O17: `intoRange` answers within its range and leaves an integer of that range as it is, so each such integer is
the draw of itself. -/
theorem drawsAreAnyValueOfTheirRange : Obligations.DrawsAreAnyValueOfTheirRange := by
  refine ⟨fun sigma bound raw => ?_, fun sigma bound z hsigma hlo hhi => ⟨z, ?_⟩,
    fun lo hi raw hle => intoRange_bounds hle raw, fun lo hi z hlo hhi => ⟨z, intoRange_of_mem hlo hhi⟩⟩
  · obtain ⟨hlo, hhi⟩ := drawGauss_bounds sigma bound raw
    exact ⟨hlo, hhi, fun hsigma => hsigma ▸ drawGauss_zero bound raw⟩
  · rw [drawGauss_of_ne_zero hsigma, intoRange_of_mem hlo hhi]

end Sys2Proof.Machine

namespace Sys2Proof.Machine

/-! ## The error of a command (R222) -/

/-- The outcome of the checks on the fields a command uses: the error of the first that applies. -/
def commandError (p : Params) (l : InFlight) (i : Instr) : ErrCode :=
  check p l (i.dest :: i.sources) i.modSel (rangeOf i)

/-- Every command makes the checks of R222 on its own fields before anything else. -/
theorem exec_eq_withChecks (i : Instr) (s : State) :
    ∃ k, exec i s = withChecks s (i.dest :: i.sources) i.modSel (rangeOf i) k := by
  cases i <;> exact ⟨_, rfl⟩

/-- A command in flight whose checks do not all pass fails with the error they find (R222). -/
theorem exec_of_commandError {i : Instr} {s : State} {l : InFlight} {e : ErrCode} (hl : s.inflight = some l)
    (he : commandError s.params l i = e) (hne : e ≠ .noError) : exec i s = .next (failCommand e s) := by
  obtain ⟨k, hk⟩ := exec_eq_withChecks i s
  subst he
  rw [hk]
  rcases withChecks_cases s (i.dest :: i.sources) i.modSel (rangeOf i) k with ⟨hnone, -⟩ | ⟨l', hl', hcase⟩
  · exact absurd (hl.symm.trans hnone) nofun
  · obtain rfl : l = l' := Option.some.inj (hl.symm.trans hl')
    rcases hcase with ⟨-, hfail⟩ | ⟨hpass, -⟩
    · exact hfail
    · exact absurd hpass hne

theorem engineTurn_of_decode_cmd {run : Instr → State → Host.Outcome State Fault Refusal} {s : State} {l : InFlight}
    {i : Instr} (hl : s.inflight = some l) (hd : decode l.cmd = .cmd i) : engineTurn run s = run i s := by
  simp only [engineTurn, hl, hd]

section
variable {p : Params} {l : InFlight} {i : Instr}

/-! ### Each test of `check` is the failure of one condition of R222 -/

theorem any_nreg_le_iff_not_regsInRange :
    ((i.dest :: i.sources).any fun r => decide (p.nreg ≤ r)) = true ↔ ¬ RegsInRange p i := by
  simp only [List.any_eq_true, decide_eq_true_eq, RegsInRange, not_forall, not_lt, exists_prop]

theorem badDegree_iff_not_legalDegree : badDegree p l.cfg.n = true ↔ ¬ LegalDegree p (ringDegree l) := by
  rw [ringDegree, zext64, ← badDegree_eq_false_iff, Bool.not_eq_false]

theorem bounds_reversed_iff_not_rangeOrdered :
    rangeOf i = some .bounds ∧ sext64 l.cfg.umin > sext64 l.cfg.umax ↔ ¬ RangeOrdered l i := by
  cases i <;> simp [rangeOf, RangeOrdered]

end

open Classical in
/-- R222 in its order: the error of a command is that of the first condition it does not meet. -/
theorem commandError_eq (p : Params) (l : InFlight) (i : Instr) : commandError p l i =
    if ¬ RegsInRange p i then .badReg
    else if ¬ LegalDegree p (ringDegree l) then .badDegree
    else if modulus l i.modSel ≤ 0 then .badModulus
    else if ¬ RangeOrdered l i then .badRange
    else .noError := by
  simp only [commandError, check, any_nreg_le_iff_not_regsInRange, badDegree_iff_not_legalDegree,
    bounds_reversed_iff_not_rangeOrdered]

/-- The completion of a command whose checks find an error has the whole effect of a failure with that error. -/
theorem failsWith_of_commandError {s : State} {l : InFlight} {i : Instr} {e : ErrCode} (hl : s.inflight = some l)
    (hd : decode l.cmd = .cmd i) (he : commandError s.params l i = e) (hne : e ≠ .noError) :
    FailsWith s (engineTurn exec s) e := by
  rw [engineTurn_of_decode_cmd hl hd, exec_of_commandError hl he hne]
  exact failsWith_failCommand e s

/-! ## A STATUS write (R37, R226) -/

theorem clearDone_eq (v : Word) (s : State) :
    clearDone v s = { s with done := if bits v 1 1 = 1 then false else s.done } := by
  by_cases h : bits v 1 1 = 1 <;> simp [clearDone, bit, h]

theorem clearError_eq (v : Word) (s : State) : clearError v s = { s with
    errValid := if bits v 2 2 = 1 then false else s.errValid
    err := if bits v 2 2 = 1 then .noError else s.err } := by
  by_cases h : bits v 2 2 = 1 <;> simp [clearError, bit, h]

/-- A write of STATUS as one update of the state: bit 1 decides DONE, bit 2 the error record. -/
theorem writeStatus_eq (v : Word) (s : State) : writeStatus v s = { s with
    done := if bits v 1 1 = 1 then false else s.done
    errValid := if bits v 2 2 = 1 then false else s.errValid
    err := if bits v 2 2 = 1 then .noError else s.err } := by
  rw [writeStatus, clearError_eq, clearDone_eq]

/-! ## The statements of 60_exceptions.md -/

/-- Settles O27: an illegal word ends with ILLEGAL_CMD before any check, and `commandError_eq` gives the error of a
decoded command. -/
theorem checksFailInOrder : Obligations.ChecksFailInOrder := by
  intro s l hl
  refine ⟨fun why hd => ?_, fun i hd => ?_⟩
  · rw [engineTurn_of_decode_illegal hl hd]
    exact failsWith_failCommand _ s
  · have hfail {e : ErrCode} := failsWith_of_commandError (e := e) hl hd
    rw [commandError_eq] at hfail
    refine ⟨fun hregs => hfail ?_ nofun, fun hregs hdeg => hfail ?_ nofun, fun hregs hdeg hmod => hfail ?_ nofun,
      fun hregs hdeg hmod hrange => hfail ?_ nofun⟩
    · rw [if_pos hregs]
    · rw [if_neg (not_not.mpr hregs), if_pos hdeg]
    · rw [if_neg (not_not.mpr hregs), if_neg (not_not.mpr hdeg), if_pos hmod]
    · rw [if_neg (not_not.mpr hregs), if_neg (not_not.mpr hdeg), if_neg (not_le.mpr hmod), if_pos hrange]

/-- Settles O35: the access is a write of the register STATUS. -/
theorem statusWriteClears : Obligations.StatusWriteClears := by
  intro s v
  have hwrite : hostAccess (writeAt 0x018 v) s = .next (respondNone (writeStatus v s)) :=
    hostAccess_writeReg s .status v
  rw [hwrite, writeStatus_eq]
  rfl

end Sys2Proof.Machine

namespace Sys2Proof.Machine

/-! ## The step that takes a given input -/

theorem step_of_inputs_access {s : State} {a : Access} {rest : List Input} (h : s.inputs = .access a :: rest) :
    step s = hostAccess a { s with inputs := rest } := by
  simp only [step, takeTurn, h]

theorem step_of_inputs_rst {s : State} {rest : List Input} (h : s.inputs = .rst :: rest) :
    step s = .next (resetBlock { s with inputs := rest }) := by
  simp only [step, takeTurn, h]

/-- A host access is the next turn only if it is the next input. -/
theorem inputs_of_takeTurn_host {s : State} {a : Access} (h : (takeTurn s).1 = .host a) :
    ∃ rest, s.inputs = .access a :: rest := by
  unfold takeTurn at h
  split at h <;> cases h
  exact ⟨_, ‹_›⟩

/-- An offset that names a register is that register's offset (R35). -/
theorem eq_regOffset_of_targetOf {p : Params} {off : Nat} {r : Reg} (h : targetOf p off = .reg r) :
    off = regOffset r := by
  unfold targetOf at h
  split at h
  · split at h <;> cases h
    exact eq_regOffset_of_regAt ‹_›
  · split at h <;> cases h

/-! ## The block after a reset (R261, R262) -/

theorem isReset_resetBlock (s : State) : IsReset s (resetBlock s) := by
  simp [IsReset]

theorem irq_resetBlock (s : State) : irq (resetBlock s) = false := rfl

theorem readReg_resetBlock (s : State) {r : Reg} (hid : r ≠ .id) (hparam : r ≠ .param) :
    readReg (resetBlock s) r = 0 := by
  cases r with
  | id => exact absurd rfl hid
  | param => exact absurd rfl hparam
  | _ => rfl

/-! ## BUSY = 1 or DONE = 1 (R270) -/

/-- What holds from an accepted CMD write on: the command is in flight or has ended. -/
def BusyOrDone (s : State) : Prop := s.inflight ≠ none ∨ s.done = true

theorem BusyOrDone.congr {s t : State} (h : BusyOrDone s) (hinflight : t.inflight = s.inflight)
    (hdone : t.done = s.done) : BusyOrDone t := by
  rwa [BusyOrDone, hinflight, hdone]

/-- A write of the word `v` to the register `r` that lowers BUSY or DONE on the host's own order: the clearing of DONE
while no command is in flight (R37), or a soft reset (R36). -/
def OrdersBusyDoneLow (s : State) (r : Reg) (v : Word) : Prop :=
  (s.inflight = none ∧ r = .status ∧ bits v 1 1 = 1) ∨ (r = .ctrl ∧ bits v 1 1 = 1)

/-- A SEED write leaves BUSY and DONE alone, held or applied (R51). -/
theorem writeSeed_inflight_done (v : Word) (s : State) :
    (writeSeed v s).inflight = s.inflight ∧ (writeSeed v s).done = s.done := by
  unfold writeSeed
  split <;> simp

/-- Only the writes of CTRL, STATUS and CMD touch BUSY or DONE. -/
theorem writeReg_inflight_done (s : State) (v : Word) {r : Reg} (hctrl : r ≠ .ctrl) (hstatus : r ≠ .status)
    (hcmd : r ≠ .cmd) : (writeReg s v r).inflight = s.inflight ∧ (writeReg s v r).done = s.done := by
  cases r with
  | ctrl => exact absurd rfl hctrl
  | status => exact absurd rfl hstatus
  | cmd => exact absurd rfl hcmd
  | seed => exact writeSeed_inflight_done v s
  | _ => exact ⟨rfl, rfl⟩

theorem writeCtrl_busyOrDone {s : State} {v : Word} (h : BusyOrDone s) (hv : bits v 1 1 ≠ 1) :
    BusyOrDone (writeCtrl v s) := by
  have hbit : ¬ bit v 1 = true := by simpa [bit] using hv
  rw [writeCtrl, if_neg hbit]
  exact h.congr rfl rfl

/-- A STATUS write never ends a command in flight, and clears DONE only with bit 1 (R37). -/
theorem writeStatus_busyOrDone {s : State} {v : Word} (h : BusyOrDone s) (hv : s.inflight = none → bits v 1 1 ≠ 1) :
    BusyOrDone (writeStatus v s) := by
  rw [writeStatus_eq]
  by_cases hidle : s.inflight = none
  · exact h.congr rfl (if_neg (hv hidle))
  · exact .inl hidle

/-- After a CMD write a command is in flight: the one that was, or the one just accepted (R114, R224). -/
theorem writeCmd_inflight_ne_none (w : Word) (s : State) : (writeCmd w s).inflight ≠ none := by
  by_cases hidle : s.inflight = none
  · simp [writeCmd_idle w hidle]
  · simpa [writeCmd_busy w hidle] using hidle

theorem writeReg_busyOrDone {s : State} {v : Word} {r : Reg} (h : BusyOrDone s) (hno : ¬ OrdersBusyDoneLow s r v) :
    BusyOrDone (writeReg s v r) := by
  by_cases hctrl : r = .ctrl
  · subst hctrl
    exact writeCtrl_busyOrDone h fun hv => hno (.inr ⟨rfl, hv⟩)
  by_cases hstatus : r = .status
  · subst hstatus
    exact writeStatus_busyOrDone h fun hidle hv => hno (.inl ⟨hidle, rfl, hv⟩)
  by_cases hcmd : r = .cmd
  · subst hcmd
    exact .inl (writeCmd_inflight_ne_none v s)
  obtain ⟨hinflight, hdone⟩ := writeReg_inflight_done s v hctrl hstatus hcmd
  exact h.congr hinflight hdone

/-- A host access keeps BUSY or DONE, unless it is a write that orders them low. -/
theorem hostAccess_busyOrDone {s t : State} {a : Access} (h : BusyOrDone s) (ha : hostAccess a s = .next t) :
    BusyOrDone t ∨ ∃ r v, a.offset = regOffset r ∧ a.kind = .write v ∧ OrdersBusyDoneLow s r v := by
  obtain ⟨-, ⟨r, hr, ⟨-, rfl⟩ | ⟨v, hv, rfl⟩⟩ | ⟨-, off, -, ⟨v, -, -, rfl⟩ | ⟨v, -, rfl⟩⟩⟩ := hostAccess_next_cases ha
  · exact .inl (h.congr rfl rfl)
  · by_cases hlow : OrdersBusyDoneLow s r v
    · exact .inr ⟨r, v, eq_regOffset_of_targetOf hr, hv, hlow⟩
    · exact .inl ((writeReg_busyOrDone h hlow).congr rfl rfl)
  · exact .inl (h.congr rfl rfl)
  · exact .inl (h.congr rfl rfl)

/-- The engine lowers BUSY only where it sets DONE (R115, R223). -/
theorem engineTurn_busyOrDone {s t : State} (h : BusyOrDone s) (he : engineTurn exec s = .next t) : BusyOrDone t := by
  by_cases hidle : s.inflight = none
  · simp only [engineTurn, hidle] at he
    cases he
    exact h
  · exact .inr (engineTurn_done_ie hidle he).1

/-- BUSY or DONE is kept by every step but a reset and a write that orders them low (R270). -/
theorem step_busyOrDone {s t : State} (h : BusyOrDone s) (hstep : step s = .next t) :
    BusyOrDone t ∨ (takeTurn s).1 = .rst ∨ ∃ a rest r v, s.inputs = .access a :: rest ∧ a.offset = regOffset r ∧
      a.kind = .write v ∧ OrdersBusyDoneLow s r v := by
  have hturn : BusyOrDone (takeTurn s).2 := by
    rw [takeTurn_snd]
    exact h
  rcases step_next_cases hstep with ⟨-, he⟩ | ⟨a, ha, hacc⟩ | ⟨hrst, -⟩
  · exact .inl (engineTurn_busyOrDone hturn he)
  · refine (hostAccess_busyOrDone hturn hacc).imp_right fun ⟨r, v, hoff, hv, hlow⟩ => ?_
    obtain ⟨rest, hrest⟩ := inputs_of_takeTurn_host ha
    rw [takeTurn_snd] at hlow
    exact .inr ⟨a, rest, r, v, hrest, hoff, hv, hlow⟩
  · exact .inr (.inl hrst)

/-- STATUS as it reads while the command is in flight or after its end: BUSY = 1, or BUSY = 0 and DONE = 1 (R37). -/
theorem statusWord_of_busyOrDone {s : State} (h : BusyOrDone s) :
    bits (statusWord s) 0 0 = 1 ∨ (bits (statusWord s) 0 0 = 0 ∧ bits (statusWord s) 1 1 = 1) := by
  obtain ⟨hbusy, hdone, -⟩ := bits_statusWord s
  rw [hbusy, hdone]
  by_cases hidle : s.inflight = none
  · have hset : s.done = true := h.resolve_left (not_not.2 hidle)
    simp [busy, hidle, hset]
  · simp [busy, Option.isSome_iff_ne_none.2 hidle]

/-! ## The statements of 70_reset_and_hazards.md -/

/-- Settles O60: a CMD write leaves a command in flight, `step_busyOrDone` is the invariant with its exceptions, and
`statusWord_of_busyOrDone` is what a STATUS read then shows. -/
theorem statusReadAfterAcceptIsNotStale : Obligations.StatusReadAfterAcceptIsNotStale := by
  refine ⟨fun s t w rest _ hin hstep => ?accept, fun s t hb hstep => ?keep, fun s rest hb hin => ?read⟩
  case accept =>
    rw [step_of_inputs_access hin] at hstep
    obtain rfl := Host.Outcome.next.inj ((hostAccess_writeReg _ .cmd w).symm.trans hstep)
    exact writeCmd_inflight_ne_none w _
  case keep =>
    refine (step_busyOrDone hb hstep).imp_right (Or.imp_right ?_)
    rintro ⟨a, rest, r, v, hin, hoff, hv, ⟨hidle, rfl, hbit⟩ | ⟨rfl, hbit⟩⟩
    · exact ⟨a, v, rest, hin, hv, .inl ⟨hidle, hoff, hbit⟩⟩
    · exact ⟨a, v, rest, hin, hv, .inr ⟨hoff, hbit⟩⟩
  case read =>
    rw [step_of_inputs_access hin]
    exact ⟨_, _, hostAccess_readReg _ .status, respond_readData _ _, statusWord_of_busyOrDone hb⟩

/-- Settles O42: the step answers `resetBlock`, which leaves every register at its reset value. -/
theorem hardwareResetLeavesResetState : Obligations.HardwareResetLeavesResetState := by
  intro s rest hin
  exact ⟨_, step_of_inputs_rst hin, isReset_resetBlock _, irq_resetBlock _, fun _ => readReg_resetBlock _, rfl, rfl⟩

end Sys2Proof.Machine

namespace Sys2Proof.Machine

open Sys2Proof.Laws.WordFields (modSelBit_le rangeSelBit_le opcode)

/-! ## The fields of a command and of its word (R101, R102) -/

/-- What a command's word holds in the field rs1 (R102): 0 where the command does not use it. -/
def rs1Field : Instr → Nat
  | .center _ rs1 _ => rs1
  | .add _ rs1 _ _ => rs1
  | .mul _ rs1 _ _ => rs1
  | .smul _ rs1 _ => rs1
  | .pow _ rs1 _ => rs1
  | .gauss _ _ => 0
  | .unif _ _ _ => 0

/-- What a command's word holds in the field rs2 (R102): 0 where the command does not use it. -/
def rs2Field : Instr → Nat
  | .add _ _ rs2 _ => rs2
  | .mul _ _ rs2 _ => rs2
  | _ => 0

/-- What a command's word holds in the field dr (R105): 0 but in UNIF. -/
def rangeField : Instr → Nat
  | .unif _ _ dr => rangeSelBit dr
  | _ => 0

theorem encode_eq_packFields (i : Instr) :
    encode i = packFields (opcode i) i.dest (rs1Field i) (rs2Field i) (modSelBit i.modSel) (rangeField i) := by
  cases i <;> rfl

theorem wellFormed_iff_fields (i : Instr) :
    i.wellFormed = true ↔ i.dest < 16 ∧ rs1Field i < 16 ∧ rs2Field i < 16 := by
  cases i <;> simp [Instr.wellFormed, regFits, Instr.dest, rs1Field, rs2Field, and_assoc]

theorem opcode_lt (i : Instr) : opcode i < 8 := by cases i <;> simp [opcode]

theorem rangeField_le (i : Instr) : rangeField i ≤ 1 := by
  cases i with
  | unif _ _ dr => exact rangeSelBit_le dr
  | _ => exact Nat.zero_le 1

/-- The word `w` has the fields of the command `i`, and its reserved bits are 0 (R100, R101). -/
structure HasFieldsOf (w : Word) (i : Instr) : Prop where
  reserved : bits w 63 18 = 0
  op : bits w 3 0 = opcode i
  rd : bits w 7 4 = i.dest
  rs1 : bits w 11 8 = rs1Field i
  rs2 : bits w 15 12 = rs2Field i
  ms : bits w 16 16 = modSelBit i.modSel
  dr : bits w 17 17 = rangeField i

theorem encode_hasFieldsOf {i : Instr} (h : i.wellFormed = true) : HasFieldsOf (encode i) i := by
  obtain ⟨hrd, hrs1, hrs2⟩ := (wellFormed_iff_fields i).mp h
  have hop := opcode_lt i
  have hms := modSelBit_le i.modSel
  have hdr := rangeField_le i
  rw [encode_eq_packFields]
  constructor <;> simp only [bits, packFields, BitVec.toNat_ofNat] <;> omega

/-- A word is determined by its fields: there is no bit outside them but the reserved ones. -/
theorem HasFieldsOf.encode_eq {w : Word} {i : Instr} (h : HasFieldsOf w i) : encode i = w := by
  obtain ⟨hres, hop, hrd, hrs1, hrs2, hms, hdr⟩ := h
  rw [encode_eq_packFields, ← hop, ← hrd, ← hrs1, ← hrs2, ← hms, ← hdr]
  have hw := w.isLt
  apply BitVec.eq_of_toNat_eq
  simp only [bits, packFields, BitVec.toNat_ofNat] at hres ⊢
  omega

theorem HasFieldsOf.wellFormed {w : Word} {i : Instr} (h : HasFieldsOf w i) : i.wellFormed = true := by
  rw [wellFormed_iff_fields, ← h.rd, ← h.rs1, ← h.rs2]
  exact ⟨Nat.mod_lt _ (by decide), Nat.mod_lt _ (by decide), Nat.mod_lt _ (by decide)⟩

/-! ## The selections ms and dr (R104, R105) -/

@[simp] theorem modSelOfBit_modSelBit (ms : ModSel) : modSelOfBit (modSelBit ms) = ms := by cases ms <;> rfl

@[simp] theorem rangeSelOfBit_rangeSelBit (dr : RangeSel) : rangeSelOfBit (rangeSelBit dr) = dr := by cases dr <;> rfl

theorem bits_single_cases (w : Word) (k : Nat) : bits w k k = 0 ∨ bits w k k = 1 := by
  have hlt : bits w k k < 2 ^ (k + 1 - k) := Nat.mod_lt _ (Nat.two_pow_pos _)
  rw [Nat.add_sub_cancel_left] at hlt
  omega

@[simp] theorem modSelBit_modSelOfBit (w : Word) (k : Nat) : modSelBit (modSelOfBit (bits w k k)) = bits w k k := by
  obtain h | h := bits_single_cases w k <;> rw [h] <;> rfl

@[simp] theorem rangeSelBit_rangeSelOfBit (w : Word) (k : Nat) :
    rangeSelBit (rangeSelOfBit (bits w k k)) = bits w k k := by
  obtain h | h := bits_single_cases w k <;> rw [h] <;> rfl

/-! ## The decoder in terms of the fields (R109) -/

theorem ifUnusedZero_eq_cmd_iff {zero : Bool} {i j : Instr} : ifUnusedZero zero i = .cmd j ↔ zero = true ∧ i = j := by
  cases zero <;> simp [ifUnusedZero]

/-- The opcode says which fields are to be 0, and the others are the command's operands. -/
theorem hasFieldsOf_of_decode {w : Word} {i : Instr} (h : decode w = .cmd i) : HasFieldsOf w i := by
  unfold decode at h
  split at h
  case isFalse => cases h
  case isTrue hres =>
    dsimp only at h
    split at h
    case h_8 => cases h
    all_goals
      rename_i hop
      obtain ⟨hzero, rfl⟩ := ifUnusedZero_eq_cmd_iff.mp h
      simp only [Bool.and_eq_true, beq_iff_eq] at hzero
      constructor <;> simp [hres, hop, hzero, opcode, Instr.dest, Instr.modSel, rs1Field, rs2Field, rangeField]

theorem decode_of_hasFieldsOf {w : Word} {i : Instr} (h : HasFieldsOf w i) : decode w = .cmd i := by
  obtain ⟨hres, hop, hrd, hrs1, hrs2, hms, hdr⟩ := h
  cases i <;>
    simp [decode, hres, hop, hrd, hrs1, hrs2, hms, hdr, opcode, Instr.dest, Instr.modSel, rs1Field, rs2Field,
      rangeField, ifUnusedZero]

/-! ## The opcode table (R109) -/

/-- The words of an opcode that carry a command are those R106 and R107 do not call illegal. -/
theorem exists_decode_iff (w : Word) (k : Nat) :
    (∃ i, opcode i = k ∧ decode w = .cmd i) ↔ bits w 3 0 = k ∧ ¬ IllegalWord w := by
  rw [← toInstr?_decode_eq_none_iff]
  constructor
  · rintro ⟨i, rfl, hd⟩
    exact ⟨(hasFieldsOf_of_decode hd).op, by simp [hd, toInstr?]⟩
  · rintro ⟨rfl, hlegal⟩
    cases hd : decode w with
    | cmd i => exact ⟨i, (hasFieldsOf_of_decode hd).op.symm, rfl⟩
    | illegal why => simp [hd, toInstr?] at hlegal

theorem exists_instr_iff {P : Instr → Prop} : (∃ i, P i) ↔
    (∃ rd rs1 ms, P (.center rd rs1 ms)) ∨ (∃ rd rs1 rs2 ms, P (.add rd rs1 rs2 ms)) ∨
      (∃ rd rs1 rs2 ms, P (.mul rd rs1 rs2 ms)) ∨ (∃ rd rs1 ms, P (.smul rd rs1 ms)) ∨
      (∃ rd rs1 ms, P (.pow rd rs1 ms)) ∨ (∃ rd ms, P (.gauss rd ms)) ∨ ∃ rd ms dr, P (.unif rd ms dr) := by
  constructor
  · rintro ⟨i, h⟩
    cases i with
    | center => exact .inl ⟨_, _, _, h⟩
    | add => exact .inr (.inl ⟨_, _, _, _, h⟩)
    | mul => exact .inr (.inr (.inl ⟨_, _, _, _, h⟩))
    | smul => exact .inr (.inr (.inr (.inl ⟨_, _, _, h⟩)))
    | pow => exact .inr (.inr (.inr (.inr (.inl ⟨_, _, _, h⟩))))
    | gauss => exact .inr (.inr (.inr (.inr (.inr (.inl ⟨_, _, h⟩)))))
    | unif => exact .inr (.inr (.inr (.inr (.inr (.inr ⟨_, _, _, h⟩)))))
  · rintro (⟨_, _, _, h⟩ | ⟨_, _, _, _, h⟩ | ⟨_, _, _, _, h⟩ | ⟨_, _, _, h⟩ | ⟨_, _, _, h⟩ | ⟨_, _, h⟩ | ⟨_, _, _, h⟩)
    all_goals exact ⟨_, h⟩

/-- The mask of the field `v[hi:lo]`. -/
def fieldMask (hi lo : Nat) : Word := BitVec.ofNat 64 ((2 ^ (hi + 1 - lo) - 1) <<< lo)

theorem toNat_and_fieldMask (w : Word) {hi lo : Nat} (hlo : lo ≤ hi) (hhi : hi < 64) :
    (w &&& fieldMask hi lo).toNat = bits w hi lo <<< lo := by
  have hmask : (2 ^ (hi + 1 - lo) - 1) <<< lo < 2 ^ 64 := by
    rw [Nat.shiftLeft_eq]
    calc (2 ^ (hi + 1 - lo) - 1) * 2 ^ lo < 2 ^ (hi + 1 - lo) * 2 ^ lo :=
          Nat.mul_lt_mul_of_pos_right (Nat.sub_lt (Nat.two_pow_pos _) Nat.one_pos) (Nat.two_pow_pos _)
      _ = 2 ^ (hi + 1) := by rw [← pow_add]; congr 1; omega
      _ ≤ 2 ^ 64 := Nat.pow_le_pow_right (by decide) hhi
  rw [BitVec.toNat_and, fieldMask, BitVec.toNat_ofNat, Nat.mod_eq_of_lt hmask]
  apply Nat.eq_of_testBit_eq
  intro k
  rw [Nat.testBit_and, Nat.testBit_shiftLeft, Nat.testBit_shiftLeft, Nat.testBit_two_pow_sub_one, testBit_bits,
    bit_eq_testBit]
  by_cases hk : lo ≤ k
  · simp [hk, Bool.and_comm]
  · simp [hk]

theorem and_fieldMask_eq_zero_iff (w : Word) {hi lo : Nat} (hlo : lo ≤ hi) (hhi : hi < 64) :
    w &&& fieldMask hi lo = 0#64 ↔ bits w hi lo = 0 := by
  rw [← BitVec.toNat_inj, toNat_and_fieldMask w hlo hhi, Nat.shiftLeft_eq]
  simp

theorem and_opcodeMask_eq_iff (w : Word) {k : Nat} (hk : k < 16) :
    w &&& fieldMask 3 0 = BitVec.ofNat 64 k ↔ bits w 3 0 = k := by
  rw [← BitVec.toNat_inj, toNat_and_fieldMask w (by decide) (by decide), Nat.shiftLeft_zero, BitVec.toNat_ofNat,
    Nat.mod_eq_of_lt (by omega)]

/-- A test with mask and match, cut into a part that is to be 0 and the rest. -/
theorem and_or_eq_iff {w m₁ m₂ c : Word} (hdisj : m₁ &&& m₂ = 0#64) (hc : c &&& m₂ = c) :
    w &&& (m₁ ||| m₂) = c ↔ w &&& m₁ = 0#64 ∧ w &&& m₂ = c := by
  rw [BitVec.and_or_distrib_left]
  constructor
  · intro h
    have hrest : w &&& m₂ = c := by
      rw [← hc, ← h, BitVec.and_or_distrib_right, BitVec.and_assoc, hdisj, BitVec.and_zero, BitVec.zero_or,
        BitVec.and_assoc, BitVec.and_self]
    have hpart : w &&& m₁ = c &&& m₁ := by
      rw [← h, BitVec.and_or_distrib_right, BitVec.and_assoc, BitVec.and_assoc, BitVec.and_self, BitVec.and_comm m₂,
        hdisj, BitVec.and_zero, BitVec.or_zero]
    refine ⟨?_, hrest⟩
    rw [hpart, ← hc, BitVec.and_assoc, BitVec.and_comm m₂, hdisj, BitVec.and_zero]
  · rintro ⟨hpart, hrest⟩
    rw [hpart, hrest, BitVec.zero_or]

/-- The bits of the fields an opcode does not use (R102). -/
def unusedMask (k : Nat) : Word :=
  if k = 2 ∨ k = 3 then fieldMask 17 17
  else if k = 6 then fieldMask 11 8 ||| (fieldMask 15 12 ||| fieldMask 17 17)
  else if k = 7 then fieldMask 11 8 ||| fieldMask 15 12
  else fieldMask 15 12 ||| fieldMask 17 17

/-- A word of an assigned opcode is legal when its reserved bits and the fields its opcode does not use are 0 (R106). -/
theorem not_illegalWord_iff {w : Word} {k : Nat} (hop : bits w 3 0 = k) (hlo : 1 ≤ k) (hhi : k ≤ 7) :
    ¬ IllegalWord w ↔ bits w 63 18 = 0 ∧ w &&& unusedMask k = 0#64 := by
  interval_cases k <;>
    simp [IllegalWord, hop, unusedMask, BitVec.and_or_distrib_left, BitVec.or_eq_zero_iff, and_fieldMask_eq_zero_iff]

/-- What a row of the opcode table with the opcode `k` tests. -/
theorem table_test_iff (w : Word) {k : Nat} (hlo : 1 ≤ k) (hhi : k ≤ 7) :
    w >>> 32 = 0#64 ∧ w &&& (fieldMask 31 18 ||| (unusedMask k ||| fieldMask 3 0)) = BitVec.ofNat 64 k ↔
      bits w 63 18 = 0 ∧ w &&& unusedMask k = 0#64 ∧ bits w 3 0 = k := by
  have hdisj : fieldMask 31 18 &&& (unusedMask k ||| fieldMask 3 0) = 0#64 ∧ unusedMask k &&& fieldMask 3 0 = 0#64 ∧
      BitVec.ofNat 64 k &&& (unusedMask k ||| fieldMask 3 0) = BitVec.ofNat 64 k ∧
      BitVec.ofNat 64 k &&& fieldMask 3 0 = BitVec.ofNat 64 k := by
    interval_cases k <;> decide
  obtain ⟨hdisj, hdisj', hmatch, hmatch'⟩ := hdisj
  have hres : w >>> 32 = 0#64 ∧ bits w 31 18 = 0 ↔ bits w 63 18 = 0 := by
    have hw := w.isLt
    rw [← BitVec.toNat_inj, BitVec.toNat_ushiftRight, Nat.shiftRight_eq_div_pow]
    simp only [bits, BitVec.toNat_ofNat]
    omega
  rw [and_or_eq_iff hdisj hmatch, and_or_eq_iff hdisj' hmatch', and_opcodeMask_eq_iff w (by omega),
    and_fieldMask_eq_zero_iff w (by decide) (by decide), ← and_assoc, hres]

/-- A row of the opcode table: the words that decode to a command of the opcode `k`, and the row's mask and match. -/
theorem exists_decode_iff_table (w mask : Word) {k : Nat} (hlo : 1 ≤ k) (hhi : k ≤ 7)
    (hmask : mask = fieldMask 31 18 ||| (unusedMask k ||| fieldMask 3 0)) :
    (∃ i, opcode i = k ∧ decode w = .cmd i) ↔ w >>> 32 = 0#64 ∧ w &&& mask = BitVec.ofNat 64 k := by
  rw [exists_decode_iff, hmask, table_test_iff w hlo hhi, ← and_assoc, and_comm]
  exact and_congr_left fun hop => not_illegalWord_iff hop hlo hhi

/-! ## The statements of 30_encoding.md on decoding and encoding -/

/-- Settles O2: the word of a command has its fields, and the decoder reads them back. -/
theorem decodeOfEncode : Obligations.DecodeOfEncode :=
  fun _ hwf => decode_of_hasFieldsOf (encode_hasFieldsOf hwf)

/-- Settles O3: the decoder answers only a command whose fields the word has, and these are all its bits. -/
theorem encodeOfDecode : Obligations.EncodeOfDecode := fun _ _ hd =>
  ⟨(hasFieldsOf_of_decode hd).wellFormed, (hasFieldsOf_of_decode hd).encode_eq⟩

/-- Settles O4, row by row: `exists_decode_iff_table` for the one command of the row's opcode. -/
theorem decodeAgreesWithTable : Obligations.DecodeAgreesWithTable := by
  intro w
  have hrow (k : Nat) (mask : Word) := exists_decode_iff_table w mask (k := k)
  refine ⟨?_, ?_, ?_, ?_, ?_, ?_, ?_⟩
  · simpa [exists_instr_iff, opcode] using hrow 1 0xFFFEF00F (by decide) (by decide) (by decide)
  · simpa [exists_instr_iff, opcode] using hrow 2 0xFFFE000F (by decide) (by decide) (by decide)
  · simpa [exists_instr_iff, opcode] using hrow 3 0xFFFE000F (by decide) (by decide) (by decide)
  · simpa [exists_instr_iff, opcode] using hrow 4 0xFFFEF00F (by decide) (by decide) (by decide)
  · simpa [exists_instr_iff, opcode] using hrow 5 0xFFFEF00F (by decide) (by decide) (by decide)
  · simpa [exists_instr_iff, opcode] using hrow 6 0xFFFEFF0F (by decide) (by decide) (by decide)
  · simpa [exists_instr_iff, opcode] using hrow 7 0xFFFCFF0F (by decide) (by decide) (by decide)

/-- Settles O1, by evaluation. -/
theorem tableWordsDecode : Obligations.TableWordsDecode := by
  unfold Obligations.TableWordsDecode
  decide

end Sys2Proof.Machine

namespace Sys2Proof.Machine

/-! ## The registers a line of assembly names (R110)

An operand list of registers below `nreg` makes a command that names no other register. -/

/-- No register of the command is ≥ `nreg`. -/
def NamesRegsBelow (nreg : Nat) (i : Instr) : Prop := ∀ r ∈ i.dest :: i.sources, r < nreg

theorem wellFormed_iff_namesRegsBelow (i : Instr) : i.wellFormed = true ↔ NamesRegsBelow 16 i := by
  cases i <;> simp [Instr.wellFormed, regFits, NamesRegsBelow, Instr.dest, Instr.sources, and_assoc]

theorem register?_lt {nreg r : Nat} {w : List Char} (h : register? nreg w = some r) : r < nreg := by
  unfold register? at h
  split at h
  · obtain ⟨n, -, hn⟩ := Option.bind_eq_some_iff.mp h
    split at hn <;> cases hn
    assumption
  · obtain ⟨n, -, hn⟩ := Option.bind_eq_some_iff.mp h
    split at hn <;> cases hn
    rename_i hlt
    exact hlt.2
  · cases h

section
variable {nreg : Nat} {ops : List (List Char)} {i : Instr}

theorem namesRegsBelow_of_subset {regs : List Nat} (hsub : i.dest :: i.sources ⊆ regs) (hlt : ∀ r ∈ regs, r < nreg) :
    NamesRegsBelow nreg i := fun r hr => hlt r (hsub hr)

theorem twoRegs_namesRegsBelow {k : Nat → Nat → Instr} (h : twoRegs nreg ops k = some i)
    (hk : ∀ x y, (k x y).dest :: (k x y).sources ⊆ [x, y]) : NamesRegsBelow nreg i := by
  unfold twoRegs at h
  split at h
  · obtain ⟨x, hx, h⟩ := Option.bind_eq_some_iff.mp h
    obtain ⟨y, hy, rfl⟩ := Option.map_eq_some_iff.mp h
    exact namesRegsBelow_of_subset (hk x y) (by simp [register?_lt hx, register?_lt hy])
  · cases h

theorem threeRegs_namesRegsBelow {k : Nat → Nat → Nat → Instr} (h : threeRegs nreg ops k = some i)
    (hk : ∀ x y z, (k x y z).dest :: (k x y z).sources ⊆ [x, y, z]) : NamesRegsBelow nreg i := by
  unfold threeRegs at h
  split at h
  · obtain ⟨x, hx, h⟩ := Option.bind_eq_some_iff.mp h
    obtain ⟨y, hy, h⟩ := Option.bind_eq_some_iff.mp h
    obtain ⟨z, hz, rfl⟩ := Option.map_eq_some_iff.mp h
    exact namesRegsBelow_of_subset (hk x y z) (by simp [register?_lt hx, register?_lt hy, register?_lt hz])
  · cases h

/-- The operand lists that name one register: those of GAUSS and UNIF. -/
theorem register?_map_namesRegsBelow {w : List Char} {k : Nat → Instr} (h : (register? nreg w).map k = some i)
    (hk : ∀ x, (k x).dest :: (k x).sources ⊆ [x]) : NamesRegsBelow nreg i := by
  obtain ⟨x, hx, rfl⟩ := Option.map_eq_some_iff.mp h
  exact namesRegsBelow_of_subset (hk x) (by simp [register?_lt hx])

theorem unifOperands_namesRegsBelow {m : ModSel} (h : unifOperands nreg ops m = some i) : NamesRegsBelow nreg i := by
  unfold unifOperands at h
  split at h
  · exact register?_map_namesRegsBelow h fun _ => .refl _
  · split at h
    · exact register?_map_namesRegsBelow h fun _ => .refl _
    · cases h
  · cases h

theorem assembleParts_namesRegsBelow {name : List Char} {m : ModSel} (h : assembleParts nreg name m ops = some i) :
    NamesRegsBelow nreg i := by
  unfold assembleParts at h
  split at h
  · exact twoRegs_namesRegsBelow h fun _ _ => .refl _
  split at h
  · exact threeRegs_namesRegsBelow h fun _ _ _ => .refl _
  split at h
  · exact threeRegs_namesRegsBelow h fun _ _ _ => .refl _
  split at h
  · exact twoRegs_namesRegsBelow h fun _ _ => .refl _
  split at h
  · exact twoRegs_namesRegsBelow h fun _ _ => .refl _
  split at h
  · split at h
    · exact register?_map_namesRegsBelow h fun _ => .refl _
    · cases h
  split at h
  · exact unifOperands_namesRegsBelow h
  split at h
  · exact twoRegs_namesRegsBelow h fun _ _ => .refl _
  split at h
  · exact twoRegs_namesRegsBelow h fun _ _ => by simp [pseudoSqr, Instr.dest, Instr.sources]
  split at h
  · exact twoRegs_namesRegsBelow h fun _ _ => by simp [pseudoDbl, Instr.dest, Instr.sources]
  · cases h

theorem assemble_namesRegsBelow {line : String} (h : assemble nreg line = some i) : NamesRegsBelow nreg i := by
  simp only [assemble] at h
  split at h
  · exact twoRegs_namesRegsBelow h fun _ _ => .refl _
  · split at h
    · cases h
    · obtain ⟨m, -, h⟩ := Option.bind_eq_some_iff.mp h
      exact assembleParts_namesRegsBelow h

end

/-! ## The statement of 30_encoding.md on assembly -/

/-- Settles O50: every register of an assembled command comes from `register?`, which refuses an absent one. -/
theorem assemblerRefusesAbsentRegisters : Obligations.AssemblerRefusesAbsentRegisters := by
  intro nreg line i hnreg h
  have hregs := assemble_namesRegsBelow h
  exact ⟨(wellFormed_iff_namesRegsBelow i).mpr fun r hr => (hregs r hr).trans_le hnreg, hregs⟩

end Sys2Proof.Machine

namespace Sys2Proof.Machine

open Polynomial (X C)

/-! ## Reduced lists: what every ring operation answers (R131, R33) -/

/-- N coefficients, each centered for M. -/
structure Reduced (M : Int) (n : Nat) (a : List Int) : Prop where
  length : a.length = n
  centered : ∀ i < n, -M < 2 * coeff a i ∧ 2 * coeff a i ≤ M

section
variable {M : Int} {n : Nat} (hM : 1 ≤ M)
include hM

theorem center_zero : center 0 M = 0 := (center_eq_self_iff hM).mpr (by omega)

theorem reduced_centerAll {a : List Int} (h : a.length = n) : Reduced M n (centerAll M a) where
  length := by rw [length_centerAll, h]
  centered i hi := by
    rw [coeff_centerAll M a (by omega)]
    exact center_bounds _ hM

/-- The lists [center(c, M), 0, ..., 0] of R157 and R159, the identity among them, as centered lists. -/
theorem cons_replicate_eq_centerAll (c : Int) :
    center c M :: List.replicate (n - 1) 0 = centerAll M (c :: List.replicate (n - 1) 0) := by
  simp [centerAll, center_zero hM]

theorem reduced_cons_replicate (hn : 1 ≤ n) (c : Int) : Reduced M n (center c M :: List.replicate (n - 1) 0) := by
  rw [cons_replicate_eq_centerAll hM]
  exact reduced_centerAll hM (by simp only [List.length_cons, List.length_replicate]; omega)

theorem reduced_ringAdd {a b : List Int} (ha : a.length = n) (hb : b.length = n) : Reduced M n (ringAdd M a b) :=
  reduced_centerAll hM (by simp [ha, hb])

theorem reduced_ringMul (a b : List Int) : Reduced M n (ringMul M n a b) :=
  reduced_centerAll hM (length_ringred _ _)

theorem reduced_ringScale (k : Int) {a : List Int} (ha : a.length = n) : Reduced M n (ringScale M k a) :=
  reduced_centerAll hM (by simp [ha])

theorem reduced_ringPow (hn : 1 ≤ n) (a : List Int) (e : Nat) : Reduced M n (ringPow M n a e) := by
  cases e with
  | zero => exact reduced_cons_replicate hM hn 1
  | succ e => exact reduced_ringMul hM _ a

end

/-! ## The product of R155 before and after reduction -/

/-- The convolution of two lists is the product of their polynomials (R150): no coefficient is cut off. -/
theorem toPoly_conv (a b : List Int) : toPoly (conv a b) = toPoly a * toPoly b := by
  ext k
  rw [coeff_toPoly_mul, coeff_toPoly]
  rcases lt_or_ge k (a.length + b.length - 1) with hk | hk
  · exact coeff_map_range _ hk
  · rw [coeff_of_le (by rwa [length_conv]), convCoeff]
    refine (List.sum_eq_zero fun x hx => ?_).symm
    obtain ⟨i, hi, rfl⟩ := List.mem_map.mp hx
    have hi' := List.mem_range.mp hi
    rcases lt_or_ge i a.length with ha | ha
    · rw [coeff_of_le (a := b) (by omega), mul_zero]
    · rw [coeff_of_le ha, zero_mul]

/-- How far each coefficient is from its centered representative, in multiples of M. -/
def centeringQuotient (M : Int) (a : List Int) : List Int := a.map fun v => (v - center v M) / M

theorem coeff_centerAll_add (M : Int) (a : List Int) (k : Nat) :
    coeff a k = coeff (centerAll M a) k + M * coeff (centeringQuotient M a) k := by
  rcases lt_or_ge k a.length with hk | hk
  · have hdvd : M ∣ coeff a k - center (coeff a k) M := (center_modEq _ M).dvd
    have hquot : coeff (centeringQuotient M a) k = (coeff a k - center (coeff a k) M) / M := by
      simp [centeringQuotient, coeff, hk]
    rw [coeff_centerAll M a hk, hquot, Int.mul_ediv_cancel' hdvd]
    ring
  · simp [coeff_of_le, centeringQuotient, hk]

theorem toPoly_centerAll_add (M : Int) (a : List Int) :
    toPoly a = toPoly (centerAll M a) + C M * toPoly (centeringQuotient M a) := by
  ext k
  simpa using coeff_centerAll_add M a k

theorem toPoly_ringred_add {c : List Int} {n : Nat} (hn : 1 ≤ n) (hlen : c.length ≤ 2 * n) :
    toPoly c = toPoly (ringred c n) + toPoly (c.drop n) * (X ^ n + 1) := by
  rw [ringred_eq_negacyclicFold hn hlen, add_comm]
  exact toPoly_eq_drop_mul_add_negacyclicFold hlen

/-! ## Residues in Z_M[x]/(x^N + 1) (R12, R155)

Every list stands for a residue, every ring operation is the operation on residues, and a reduced list is determined by
its residue. So each law of R159 is the law of a commutative ring. -/

/-- The ideal generated by x^N + 1 and M. -/
noncomputable def ringIdeal (M : Int) (n : Nat) : Ideal (Polynomial ℤ) := Ideal.span {X ^ n + 1, C M}

/-- The residue a list stands for. -/
noncomputable def residue (M : Int) (n : Nat) (a : List Int) : Polynomial ℤ ⧸ ringIdeal M n :=
  Ideal.Quotient.mk (ringIdeal M n) (toPoly a)

@[simp] theorem mk_ringPoly (M : Int) (n : Nat) : Ideal.Quotient.mk (ringIdeal M n) (X ^ n + 1) = 0 :=
  Ideal.Quotient.eq_zero_iff_mem.mpr (Ideal.subset_span (by simp))

@[simp] theorem mk_modulus (M : Int) (n : Nat) : Ideal.Quotient.mk (ringIdeal M n) (C M) = 0 :=
  Ideal.Quotient.eq_zero_iff_mem.mpr (Ideal.subset_span (by simp))

@[simp] theorem residue_centerAll (M : Int) (n : Nat) (a : List Int) : residue M n (centerAll M a) = residue M n a := by
  rw [residue, residue, toPoly_centerAll_add M a, map_add, map_mul, mk_modulus, zero_mul, add_zero]

theorem residue_ringred {c : List Int} {M : Int} {n : Nat} (hn : 1 ≤ n) (hlen : c.length ≤ 2 * n) :
    residue M n (ringred c n) = residue M n c := by
  rw [residue, residue, toPoly_ringred_add hn hlen, map_add, map_mul, mk_ringPoly, mul_zero, add_zero]

theorem residue_ringMul (M : Int) {n : Nat} {a b : List Int} (hn : 1 ≤ n) (ha : a.length = n) (hb : b.length = n) :
    residue M n (ringMul M n a b) = residue M n a * residue M n b := by
  rw [ringMul, residue_centerAll, residue_ringred hn (by rw [length_conv]; omega), residue, toPoly_conv, map_mul]
  rfl

theorem toPoly_zipWith_add {a b : List Int} (h : a.length = b.length) :
    toPoly (List.zipWith (· + ·) a b) = toPoly a + toPoly b := by
  ext k
  rw [Polynomial.coeff_add, coeff_toPoly, coeff_toPoly, coeff_toPoly]
  rcases lt_or_ge k a.length with hk | hk
  · have hk' : k < b.length := h ▸ hk
    simp [coeff, hk, hk']
  · rw [coeff_of_le (by simp [hk]), coeff_of_le hk, coeff_of_le (h ▸ hk), add_zero]

theorem residue_ringAdd (M : Int) (n : Nat) {a b : List Int} (h : a.length = b.length) :
    residue M n (ringAdd M a b) = residue M n a + residue M n b := by
  rw [ringAdd, residue_centerAll, residue, toPoly_zipWith_add h, map_add]
  rfl

/-- The residue of a constant. -/
noncomputable def constant (M : Int) (n : Nat) (k : Int) : Polynomial ℤ ⧸ ringIdeal M n :=
  Ideal.Quotient.mk (ringIdeal M n) (C k)

theorem toPoly_map_mul (k : Int) (a : List Int) : toPoly (a.map fun v => k * v) = C k * toPoly a := by
  induction a with
  | nil => simp [toPoly]
  | cons x xs ih =>
    rw [List.map_cons, toPoly, toPoly, ih, Polynomial.C_mul]
    ring

theorem residue_ringScale (M k : Int) (n : Nat) (a : List Int) :
    residue M n (ringScale M k a) = constant M n k * residue M n a := by
  rw [ringScale, residue_centerAll, residue, toPoly_map_mul, map_mul]
  rfl

theorem residue_cons_replicate {M : Int} (hM : 1 ≤ M) (n : Nat) (c : Int) :
    residue M n (center c M :: List.replicate (n - 1) 0) = constant M n c := by
  rw [cons_replicate_eq_centerAll hM, residue_centerAll, residue, toPoly, toPoly_replicate_zero, mul_zero, add_zero]
  rfl

theorem residue_ringPow {M : Int} {n : Nat} {a : List Int} (hM : 1 ≤ M) (hn : 1 ≤ n) (ha : a.length = n) (e : Nat) :
    residue M n (ringPow M n a e) = residue M n a ^ e := by
  induction e with
  | zero =>
    rw [ringPow, ringOne, residue_cons_replicate hM, pow_zero, constant, Polynomial.C_1, map_one]
  | succ e ih => rw [ringPow, residue_ringMul M hn (length_ringPow a e hn) ha, ih, pow_succ]

/-- x^N = -1 in the ring (R157). -/
theorem residue_x_pow (M : Int) (n : Nat) :
    residue M n (0 :: 1 :: List.replicate (n - 2) 0) ^ n = constant M n (-1) := by
  have hx : toPoly (0 :: 1 :: List.replicate (n - 2) 0) = X := by simp [toPoly]
  have hzero := mk_ringPoly M n
  rw [map_add, map_one, map_pow] at hzero
  rw [residue, hx, constant, Polynomial.C_neg, Polynomial.C_1, map_neg, map_one]
  exact eq_neg_of_add_eq_zero_left hzero

/-- In the ideal, a polynomial of degree below N is a multiple of M: modulo x^N + 1 it is its own remainder. -/
theorem dvd_coeff_of_mem_ringIdeal {M : Int} {n : Nat} {p : Polynomial ℤ} (hn : 1 ≤ n) (hp : p ∈ ringIdeal M n)
    (hdeg : p.degree < n) (k : Nat) : M ∣ p.coeff k := by
  obtain ⟨u, v, huv⟩ := Ideal.mem_span_pair.mp hp
  have hmonic : (X ^ n + 1 : Polynomial ℤ).Monic := Polynomial.monic_X_pow_add_C 1 (by omega)
  have hdegree : (X ^ n + 1 : Polynomial ℤ).degree = n := Polynomial.degree_X_pow_add_C (by omega) 1
  have hself : p %ₘ (X ^ n + 1) = p := (Polynomial.modByMonic_eq_self_iff hmonic).mpr (by rwa [hdegree])
  have hsub : (X ^ n + 1) ∣ p - M • v := ⟨u, by rw [← huv, Polynomial.smul_eq_C_mul]; ring⟩
  have hmul : p = M • (v %ₘ (X ^ n + 1)) := by
    rw [← Polynomial.smul_modByMonic, ← Polynomial.modByMonic_eq_of_dvd_sub hmonic hsub, hself]
  rw [hmul, Polynomial.coeff_smul]
  exact Dvd.intro _ rfl

/-- A reduced list is determined by its residue. -/
theorem Reduced.eq_of_residue_eq {M : Int} {n : Nat} {a b : List Int} (hn : 1 ≤ n) (ha : Reduced M n a)
    (hb : Reduced M n b) (h : residue M n a = residue M n b) : a = b := by
  have hmem : toPoly a - toPoly b ∈ ringIdeal M n := Ideal.Quotient.eq.mp h
  have hdeg (c : List Int) (hc : Reduced M n c) : (toPoly c).degree < n :=
    degree_toPoly_lt_iff.mpr ((degSucc_le_length c).trans hc.length.le)
  have hlt : (toPoly a - toPoly b).degree < n :=
    (Polynomial.degree_sub_le _ _).trans_lt (max_lt (hdeg a ha) (hdeg b hb))
  refine List.ext_getElem (ha.length.trans hb.length.symm) fun i hi hi' => ?_
  have hin : i < n := ha.length ▸ hi
  have hdvd := dvd_coeff_of_mem_ringIdeal hn hmem hlt i
  rw [Polynomial.coeff_sub, coeff_toPoly, coeff_toPoly] at hdvd
  rw [← coeff_of_lt hi, ← coeff_of_lt hi']
  obtain ⟨hlo, hhi⟩ := ha.centered i hin
  obtain ⟨hlo', hhi'⟩ := hb.centered i hin
  exact (eq_center_of_modEq (Int.modEq_of_dvd hdvd).symm hlo hhi).trans
    (eq_center_of_modEq (Int.ModEq.refl _) hlo' hhi').symm

/-! ## The statements of 41_ring_arith.md on the ring -/

/-- Settles O10: the coefficients beyond N - 1 are the multiple of x^N + 1, and the distances to the centered
representatives the multiple of M. -/
theorem mulIsProductInQuotientRing : Obligations.MulIsProductInQuotientRing := by
  intro M n a b hM hn ha hb
  obtain ⟨hlen, hcentered⟩ := reduced_ringMul (n := n) hM a b
  refine ⟨hlen, hcentered, (conv a b).drop n, centeringQuotient M (ringred (conv a b) n), fun k => ?_⟩
  have hconv : (conv a b).length ≤ 2 * n := by rw [length_conv]; omega
  have hred := congrArg (Polynomial.coeff · k) (toPoly_ringred_add hn hconv)
  simp only [toPoly_conv, ← toPoly_ringPoly hn, Polynomial.coeff_add, coeff_toPoly_mul, coeff_toPoly] at hred
  have hcenter := coeff_centerAll_add M (ringred (conv a b) n) k
  rw [ringMul]
  omega

/-- Settles O11: addition and multiplication of residues are commutative, and addition is associative. -/
theorem addAndMulCommute : Obligations.AddAndMulCommute := by
  intro M n a b c hM hn ha hb hc
  have hab := reduced_ringAdd hM ha hb
  have hbc := reduced_ringAdd hM hb hc
  refine ⟨hab.eq_of_residue_eq hn (reduced_ringAdd hM hb ha) ?_,
    (reduced_ringAdd hM hab.length hc).eq_of_residue_eq hn (reduced_ringAdd hM ha hbc.length) ?_,
    (reduced_ringMul hM a b).eq_of_residue_eq hn (reduced_ringMul hM b a) ?_⟩
  · rw [residue_ringAdd M n (ha.trans hb.symm), residue_ringAdd M n (hb.trans ha.symm), add_comm]
  · rw [residue_ringAdd M n (hab.length.trans hc.symm), residue_ringAdd M n (ha.trans hb.symm),
      residue_ringAdd M n (ha.trans hbc.length.symm), residue_ringAdd M n (hb.trans hc.symm), add_assoc]
  · rw [residue_ringMul M hn ha hb, residue_ringMul M hn hb ha, mul_comm]

/-- Settles O12: multiplication of residues is associative. -/
theorem mulAssociates : Obligations.MulAssociates := by
  intro M n a b c hM hn ha hb hc
  refine (reduced_ringMul hM _ c).eq_of_residue_eq hn (reduced_ringMul hM a _) ?_
  rw [residue_ringMul M hn (length_ringMul M n a b) hc, residue_ringMul M hn ha hb,
    residue_ringMul M hn ha (length_ringMul M n b c), residue_ringMul M hn hb hc, mul_assoc]

/-- Settles O13: multiplication of residues distributes over addition. -/
theorem mulDistributesOverAdd : Obligations.MulDistributesOverAdd := by
  intro M n a b c hM hn ha hb hc
  have hab := reduced_ringMul (n := n) hM a b
  have hac := reduced_ringMul (n := n) hM a c
  refine (reduced_ringMul hM a _).eq_of_residue_eq hn (reduced_ringAdd hM hab.length hac.length) ?_
  rw [residue_ringMul M hn ha (reduced_ringAdd hM hb hc).length, residue_ringAdd M n (hb.trans hc.symm),
    residue_ringAdd M n (hab.length.trans hac.length.symm), residue_ringMul M hn ha hb, residue_ringMul M hn ha hc,
    mul_add]

/-- Settles O14: POW is the power of the residue. -/
theorem powAddsExponents : Obligations.PowAddsExponents := by
  intro M n a e1 e2 hM hn ha
  refine (reduced_ringPow hM hn a _).eq_of_residue_eq hn (reduced_ringMul hM _ _) ?_
  rw [residue_ringMul M hn (length_ringPow a e1 hn) (length_ringPow a e2 hn), residue_ringPow hM hn ha,
    residue_ringPow hM hn ha, residue_ringPow hM hn ha, pow_add]

/-- Settles O15: SMUL is the product with a constant residue. -/
theorem scalarLaws : Obligations.ScalarLaws := by
  intro M k n a b hM hn ha hb
  have hab := reduced_ringAdd hM ha hb
  have hka := reduced_ringScale hM k ha
  have hkb := reduced_ringScale hM k hb
  refine ⟨(reduced_ringScale hM k hab.length).eq_of_residue_eq hn (reduced_ringAdd hM hka.length hkb.length) ?_,
    hka.eq_of_residue_eq hn (reduced_ringMul hM a _) ?_⟩
  · rw [residue_ringScale, residue_ringAdd M n (ha.trans hb.symm),
      residue_ringAdd M n (hka.length.trans hkb.length.symm), residue_ringScale, residue_ringScale, mul_add]
  · rw [residue_ringScale, residue_ringMul M hn ha (reduced_cons_replicate hM hn k).length, residue_cons_replicate hM,
      mul_comm]

/-- Settles O16: x^N = -1 in the ring, and its square is 1. -/
theorem powCornerCases : Obligations.PowCornerCases := by
  intro M n a hM hn ha
  refine ⟨rfl, (reduced_ringPow hM hn a 1).eq_of_residue_eq hn (reduced_centerAll hM ha) ?_, fun h2 => ?_⟩
  · rw [residue_ringPow hM hn ha, pow_one, residue_centerAll]
  · have hx : (0 :: 1 :: List.replicate (n - 2) (0 : Int)).length = n := by
      simp only [List.length_cons, List.length_replicate]; omega
    refine ⟨(reduced_ringPow hM hn _ n).eq_of_residue_eq hn (reduced_cons_replicate hM hn _) ?_,
      (reduced_ringPow hM hn _ (2 * n)).eq_of_residue_eq hn (reduced_cons_replicate hM hn _) ?_⟩
    · rw [residue_ringPow hM hn hx, residue_x_pow M n, residue_cons_replicate hM]
    · rw [residue_ringPow hM hn hx, mul_comm, pow_mul, residue_x_pow M n, residue_cons_replicate hM]
      rw [constant, constant, ← map_pow, ← Polynomial.C_pow, neg_one_sq]

end Sys2Proof.Machine

namespace Sys2Proof.Machine

/-! ## One meaning for all commands

Each command is the checks of R222, the reading of its sources, and a completion with its result and its draws (R115).
Said once in this form, what holds of every command needs no case per command. -/

/-- The reading of several operands one after another (R115). -/
def withOperands (s : State) (l : InFlight) :
    List Nat → (List (List Int) → Host.Outcome State Fault Refusal) → Host.Outcome State Fault Refusal
  | [], k => k []
  | r :: rs, k => withOperand s l r fun a => withOperands s l rs fun as => k (a :: as)

/-- The coefficients a command writes, of its operands in field order and of the free values behind its draws. -/
def commandResult (l : InFlight) (raw : Nat → Int) : Instr → List (List Int) → List Int
  | .center _ _ ms, [a] => centerAll (modulus l ms) a
  | .add _ _ _ ms, [a, b] => ringAdd (modulus l ms) a b
  | .mul _ _ _ ms, [a, b] => ringMul (modulus l ms) (ringDegree l) a b
  | .smul _ _ ms, [a] => ringScale (modulus l ms) (scalarOperand l) a
  | .pow _ _ ms, [a] => ringPow (modulus l ms) (ringDegree l) a (exponentOperand l)
  | .gauss _ ms, [] => gaussCells (modulus l ms) (ringDegree l) (sigmaUnits l) (tailBound l) raw
  | .unif _ ms dr, [] =>
    uniformCells (modulus l ms) (ringDegree l) (uniformRange l ms dr).1 (uniformRange l ms dr).2 raw
  | _, _ => []

/-- How many draws a command takes (R196). -/
def drawsTaken (l : InFlight) : Instr → Nat
  | .gauss _ _ => ringDegree l
  | .unif _ _ _ => ringDegree l
  | _ => 0

/-- The state a command with the operands `ops` completes in. -/
def completed (i : Instr) (s : State) (l : InFlight) (ops : List (List Int)) : State :=
  completeCommand i.dest (commandResult l (rawDraw s) i ops) (takeDraws (drawsTaken l i) s)

theorem exec_eq_withOperands (i : Instr) (s : State) :
    exec i s = withChecks s (i.dest :: i.sources) i.modSel (rangeOf i) fun l =>
      withOperands s l i.sources fun ops => .next (completed i s l ops) := by
  cases i <;> rfl

/-! ## The operands -/

/-- The registers `rs` hold the lists `ops`, in order. -/
abbrev HoldOperands (s : State) (n : Nat) : List Nat → List (List Int) → Prop :=
  List.Forall₂ fun r a => HoldsPoly s r n a

/-- One of the first `n` cells of one of the registers `rs` is `undef`. -/
def UndefAmong (s : State) (n : Nat) (rs : List Nat) : Prop := ∃ r ∈ rs, ∃ k < n, cell s r k = none

theorem HoldOperands.not_undefAmong {s : State} {n : Nat} {rs : List Nat} {ops : List (List Int)}
    (h : HoldOperands s n rs ops) : ¬ UndefAmong s n rs := by
  rintro ⟨r, hr, k, hk, hnone⟩
  induction h with
  | nil => cases hr
  | cons hhead _ ih =>
    rcases List.mem_cons.mp hr with rfl | hr
    · exact absurd (hnone.symm.trans (hhead.2 k hk)) nofun
    · exact ih hr

theorem readCells_eq_none_iff_undef {s : State} {r n : Nat} :
    readCells s.params s.poly r 0 n = none ↔ ∃ k < n, cell s r k = none := by
  simp [readCells_eq_none, cell]

section
variable {s : State} {l : InFlight} {rs : List Nat} {k : List (List Int) → Host.Outcome State Fault Refusal}

/-- What reading the operands answers: a fault on an `undef` cell, or the continuation on what the registers hold. -/
theorem withOperands_cases :
    (UndefAmong s (ringDegree l) rs ∧ withOperands s l rs k = .fault .readUndefEngine) ∨
      ∃ ops, HoldOperands s (ringDegree l) rs ops ∧ withOperands s l rs k = k ops := by
  induction rs generalizing k with
  | nil => exact .inr ⟨[], .nil, rfl⟩
  | cons r rs ih =>
    rw [withOperands]
    rcases withOperand_cases s l r fun a => withOperands s l rs fun as => k (a :: as) with ⟨hnone, h⟩ | ⟨a, ha, h⟩
    · exact .inl ⟨⟨r, List.mem_cons_self, readCells_eq_none_iff_undef.mp hnone⟩, h⟩
    · rw [h]
      rcases ih (k := fun as => k (a :: as)) with ⟨⟨r', hr', hundef⟩, h⟩ | ⟨as, has, h⟩
      · exact .inl ⟨⟨r', List.mem_cons_of_mem r hr', hundef⟩, h⟩
      · exact .inr ⟨a :: as, .cons (readCells_eq_some_iff_holds.mp ha) has, h⟩

theorem withOperands_of_undef (h : UndefAmong s (ringDegree l) rs) :
    withOperands s l rs k = .fault .readUndefEngine := by
  rcases withOperands_cases (s := s) (l := l) (rs := rs) (k := k) with ⟨-, hfault⟩ | ⟨ops, hops, -⟩
  · exact hfault
  · exact absurd h hops.not_undefAmong

theorem withOperands_of_hold {ops : List (List Int)} (h : HoldOperands s (ringDegree l) rs ops) :
    withOperands s l rs k = k ops := by
  induction h generalizing k with
  | nil => rfl
  | cons hhead _ ih =>
    rw [withOperands, withOperand, readCells_eq_some_iff_holds.mpr hhead]
    exact ih

end

/-! ## What a command can do -/

section
variable {i : Instr} {s : State} {l : InFlight} (hl : s.inflight = some l)
include hl

theorem exec_of_passes (hp : Passes s.params l i) :
    exec i s = withOperands s l i.sources fun ops => .next (completed i s l ops) := by
  rw [exec_eq_withOperands, withChecks, hl]
  simp only [(check_eq_noError_iff_passes s.params l i).mpr hp]

theorem exec_of_not_passes (hp : ¬ Passes s.params l i) : ∃ e, e ≠ .noError ∧ exec i s = .next (failCommand e s) :=
  ⟨_, (check_eq_noError_iff_passes s.params l i).not.mpr hp,
    exec_of_commandError hl rfl ((check_eq_noError_iff_passes s.params l i).not.mpr hp)⟩

/-- Everything the completion of a command in flight can answer: the failure of a check, the fault of an `undef`
operand, or the completion with the command's result. -/
theorem exec_cases (i : Instr) :
    (¬ Passes s.params l i ∧ ∃ e, e ≠ .noError ∧ exec i s = .next (failCommand e s)) ∨
      (Passes s.params l i ∧ UndefAmong s (ringDegree l) i.sources ∧ exec i s = .fault .readUndefEngine) ∨
        (Passes s.params l i ∧
          ∃ ops, HoldOperands s (ringDegree l) i.sources ops ∧ exec i s = .next (completed i s l ops)) := by
  by_cases hp : Passes s.params l i
  · rw [exec_of_passes hl hp]
    rcases withOperands_cases (s := s) (l := l) (rs := i.sources)
      (k := fun ops => .next (completed i s l ops)) with ⟨hundef, h⟩ | ⟨ops, hops, h⟩
    · exact .inr (.inl ⟨hp, hundef, h⟩)
    · exact .inr (.inr ⟨hp, ops, hops, h⟩)
  · exact .inl ⟨hp, exec_of_not_passes hl hp⟩

theorem exec_next_inv {t : State} (h : exec i s = .next t) :
    (¬ Passes s.params l i ∧ ∃ e, e ≠ .noError ∧ t = failCommand e s) ∨
      (Passes s.params l i ∧ ∃ ops, HoldOperands s (ringDegree l) i.sources ops ∧ t = completed i s l ops) := by
  rcases exec_cases hl i with ⟨hp, e, he, h'⟩ | ⟨-, -, h'⟩ | ⟨hp, ops, hops, h'⟩
  · exact .inl ⟨hp, e, he, Host.Outcome.next.inj (h.symm.trans h')⟩
  · exact absurd (h.symm.trans h') nofun
  · exact .inr ⟨hp, ops, hops, Host.Outcome.next.inj (h.symm.trans h')⟩

end

/-! ## The result of a command is centered -/

theorem Passes.one_le_ringDegree {p : Params} {l : InFlight} {i : Instr} (h : Passes p l i) : 1 ≤ ringDegree l := by
  obtain ⟨-, ⟨k, -, hk⟩, -⟩ := h
  exact hk ▸ Nat.one_le_two_pow

/-- Every command that passes its checks writes L.N centered coefficients (R131). -/
theorem reduced_commandResult {p : Params} {s : State} {l : InFlight} {i : Instr} {ops : List (List Int)}
    (hp : Passes p l i) (hops : HoldOperands s (ringDegree l) i.sources ops) (raw : Nat → Int) :
    Reduced (modulus l i.modSel) (ringDegree l) (commandResult l raw i ops) := by
  have hM : 1 ≤ modulus l i.modSel := hp.2.2.1
  have hn := hp.one_le_ringDegree
  cases i with
  | center rd rs1 ms =>
    obtain _ | ⟨ha, _ | _⟩ := hops
    exact reduced_centerAll hM ha.1
  | add rd rs1 rs2 ms =>
    obtain _ | ⟨ha, _ | ⟨hb, _ | _⟩⟩ := hops
    exact reduced_ringAdd hM ha.1 hb.1
  | mul rd rs1 rs2 ms =>
    obtain _ | ⟨ha, _ | ⟨hb, _ | _⟩⟩ := hops
    exact reduced_ringMul hM _ _
  | smul rd rs1 ms =>
    obtain _ | ⟨ha, _ | _⟩ := hops
    exact reduced_ringScale hM _ ha.1
  | pow rd rs1 ms =>
    obtain _ | ⟨ha, _ | _⟩ := hops
    exact reduced_ringPow hM hn _ _
  | gauss rd ms =>
    obtain _ | _ := hops
    refine ⟨length_gaussCells .., fun k hk => ?_⟩
    rw [commandResult, gaussCells, coeff_map_range _ hk]
    exact center_bounds _ hM
  | unif rd ms dr =>
    obtain _ | _ := hops
    refine ⟨length_uniformCells .., fun k hk => ?_⟩
    rw [commandResult, uniformCells, coeff_map_range _ hk]
    exact center_bounds _ hM

/-! ## The cells and the effect of a completion -/

/-- A centered value fits a cell: a modulus is below 2^63 (R42). -/
theorem sext64_enc64_of_centered {M c : Int} (hM : M < 2 ^ 63) (h : -M < 2 * c ∧ 2 * c ≤ M) :
    sext64 (enc64 c) = c :=
  sext64_enc64 (by omega) (by omega)

/-- The cells of the destination hold the result (R115). -/
theorem cell_completeCommand {M : Int} {n rd k : Nat} {result : List Int} (s : State) (hM : M < 2 ^ 63)
    (hred : Reduced M n result) (hk : k < n) : cell (completeCommand rd result s) rd k = some (coeff result k) := by
  have hlt : k < result.length := hred.length.symm ▸ hk
  have hread := polyRead_writeCells_same (p := s.params) (r := rd) result 0 (m := s.poly) k hlt
  rw [Nat.zero_add, ← coeff_of_lt hlt] at hread
  rw [cell, completeCommand_params, completeCommand_poly, hread, Option.map_some,
    sext64_enc64_of_centered hM (hred.centered k hk)]

theorem commandOver_completed (i : Instr) (s : State) (l : InFlight) (ops : List (List Int)) :
    CommandOver s (completed i s l ops) :=
  ⟨completeCommand_done .., by simp [completed, busy], completeCommand_inflight .., completeCommand_heldSeed ..,
    congrArg Entropy.seed (completeCommand_entropy ..)⟩

theorem sameOutsideEngine_completed (i : Instr) (s : State) (l : InFlight) (ops : List (List Int)) :
    SameOutsideEngine s (completed i s l ops) := by
  simp [SameOutsideEngine, completed]

@[simp] theorem completed_errValid (i : Instr) (s : State) (l : InFlight) (ops : List (List Int)) :
    (completed i s l ops).errValid = s.errValid := by simp [completed]

@[simp] theorem completed_err (i : Instr) (s : State) (l : InFlight) (ops : List (List Int)) :
    (completed i s l ops).err = s.err := by simp [completed]

@[simp] theorem completed_drawn (i : Instr) (s : State) (l : InFlight) (ops : List (List Int)) :
    (completed i s l ops).entropy.drawn = s.entropy.drawn + drawsTaken l i := by simp [completed]

@[simp] theorem completed_poly (i : Instr) (s : State) (l : InFlight) (ops : List (List Int)) :
    (completed i s l ops).poly = writeCells s.params i.dest 0 (commandResult l (rawDraw s) i ops) s.poly := by
  simp [completed]

section
variable {i : Instr} {s : State} {l : InFlight} {ops : List (List Int)} (hp : Passes s.params l i)
  (hops : HoldOperands s (ringDegree l) i.sources ops)
include hp hops

theorem cell_completed {k : Nat} (hk : k < ringDegree l) :
    cell (completed i s l ops) i.dest k = some (coeff (commandResult l (rawDraw s) i ops) k) :=
  cell_completeCommand _ (modulus_lt l i.modSel) (reduced_commandResult hp hops _) hk

/-- Outside the cells of its destination a command changes no cell (R33). -/
theorem cellsKept_completed : CellsKept s (completed i s l ops) i.dest (ringDegree l) := by
  intro off hoff
  have hlen := (reduced_commandResult hp hops (rawDraw s)).length
  rw [completed_poly, polyRead_writeCells_other]
  intro k hk
  rw [Nat.zero_add]
  exact hoff k (hlen ▸ hk)

/-- A command in flight that passes its checks and whose operands hold values succeeds with its result. -/
theorem exec_succeedsWith (hl : s.inflight = some l) {f : Nat → Int}
    (hf : ∀ k < ringDegree l, coeff (commandResult l (rawDraw s) i ops) k = f k) :
    SucceedsWith s (exec i s) i.dest (ringDegree l) f := by
  refine ⟨completed i s l ops, ?_, fun k hk => ?_, completed_errValid .., completed_err .., commandOver_completed ..⟩
  · rw [exec_of_passes hl hp, withOperands_of_hold hops]
  · rw [cell_completed hp hops hk, hf k hk]

end

/-! ## The coefficients of the results -/

theorem coeff_ringAdd (M : Int) {a b : List Int} {k : Nat} (ha : k < a.length) (hb : k < b.length) :
    coeff (ringAdd M a b) k = center (coeff a k + coeff b k) M := by
  simp [ringAdd, centerAll, coeff, ha, hb]

theorem coeff_ringScale (M c : Int) {a : List Int} {k : Nat} (ha : k < a.length) :
    coeff (ringScale M c a) k = center (c * coeff a k) M := by
  simp [ringScale, centerAll, coeff, ha]

/-- R157's recursion determines the power. -/
theorem ringPow_unique {M : Int} {n : Nat} {a : List Int} {acc : Nat → List Int} (h0 : acc 0 = ringOne M n)
    (hsucc : ∀ e, acc (e + 1) = ringMul M n (acc e) a) (e : Nat) : acc e = ringPow M n a e := by
  induction e with
  | zero => exact h0
  | succ e ih => rw [hsucc, ih, ringPow]

/-- The range of UNIF is not empty once the checks have passed (R222). -/
theorem uniformRange_ordered {p : Params} {l : InFlight} {rd : Nat} {ms : ModSel} {dr : RangeSel}
    (hp : Passes p l (.unif rd ms dr)) : (uniformRange l ms dr).1 ≤ (uniformRange l ms dr).2 := by
  obtain ⟨-, -, hM, hrange⟩ := hp
  cases dr with
  | bounds => exact hrange rd ms rfl
  | whole => exact hM.le

/-! ## The frame of a command -/

/-- The frame of every command: what a failure changes, and what a success (R33, R56, R115, R223). -/
theorem exec_frame {i : Instr} {s t : State} {l : InFlight} (hl : s.inflight = some l) (h : exec i s = .next t) :
    SameOutsideEngine s t ∧ CommandOver s t ∧ CellsKept s t i.dest (ringDegree l) ∧
      ((¬ Passes s.params l i ∧ t.poly = s.poly ∧ t.errValid = true ∧ (s.errValid = true → t.err = s.err) ∧
          t.entropy.drawn = s.entropy.drawn) ∨
        (Passes s.params l i ∧ t.errValid = s.errValid ∧ t.err = s.err ∧
          t.entropy.drawn = s.entropy.drawn + drawsTaken l i)) := by
  rcases exec_next_inv hl h with ⟨hp, e, -, rfl⟩ | ⟨hp, ops, hops, rfl⟩
  · obtain ⟨t, ht, hpoly, hdrawn, hvalid, herr, hsame, hover⟩ := failsWith_failCommand e s
    obtain rfl := Host.Outcome.next.inj ht
    exact ⟨hsame, hover, fun off _ => by rw [hpoly],
      .inl ⟨hp, hpoly, hvalid, fun hset => by rw [herr, if_pos hset], hdrawn⟩⟩
  · exact ⟨sameOutsideEngine_completed .., commandOver_completed .., cellsKept_completed hp hops,
      .inr ⟨hp, completed_errValid .., completed_err .., completed_drawn ..⟩⟩

theorem drawsTaken_of_not_sampler {i : Instr} (hg : ∀ rd ms, i ≠ .gauss rd ms) (hu : ∀ rd ms dr, i ≠ .unif rd ms dr)
    (l : InFlight) : drawsTaken l i = 0 := by
  cases i with
  | gauss rd ms => exact absurd rfl (hg rd ms)
  | unif rd ms dr => exact absurd rfl (hu rd ms dr)
  | _ => rfl

theorem drawsTaken_of_sampler {i : Instr} (h : (∃ rd ms, i = .gauss rd ms) ∨ ∃ rd ms dr, i = .unif rd ms dr)
    (l : InFlight) : drawsTaken l i = ringDegree l := by
  obtain ⟨rd, ms, rfl⟩ | ⟨rd, ms, dr, rfl⟩ := h <;> rfl

/-- A cell that a completion changes is one of the cells its result is written to (R33). -/
theorem CellsKept.exists_of_ne {s t : State} {rd n off : Nat} (h : CellsKept s t rd n)
    (hne : polyRead t.poly off ≠ polyRead s.poly off) : ∃ k < n, off = cellOffset s.params rd k := by
  by_contra hout
  exact hne (h off fun k hk hoff => hout ⟨k, hk, hoff⟩)

/-! ## A completion reads the latched configuration only (R50, R80) -/

/-- The configuration registers replaced. -/
def withConfig (c : ConfigRegs) (s : State) : State := { s with cfg := c }

theorem completesAlike_withConfig (c : ConfigRegs) (s : State) :
    CompletesAlike (withConfig c) s (withConfig c s) where
  params := rfl
  inflight := rfl
  poly := rfl
  drawn := rfl
  fail e := by simp only [failCommand, recordError_eq, finishCommand_eq, withConfig]
  complete rd result draws := by simp only [completeCommand, takeDraws, finishCommand_eq, withConfig]

/-! ## The statements of 40_reduction.md to 42_sampler.md on the completion of each command -/

/-- Settles O18: a coefficient of the result is the centered one of the operand. -/
theorem centerCompletes : Obligations.CenterCompletes := by
  intro s l rd rs1 ms a hl hp ha
  exact exec_succeedsWith hp (.cons ha .nil) hl fun k hk => coeff_centerAll _ a (ha.1.symm ▸ hk)

/-- Settles O19: a coefficient of the result is the centered sum. -/
theorem addCompletes : Obligations.AddCompletes := by
  intro s l rd rs1 rs2 ms a b hl hp ha hb
  exact exec_succeedsWith hp (.cons ha (.cons hb .nil)) hl fun k hk =>
    coeff_ringAdd _ (ha.1.symm ▸ hk) (hb.1.symm ▸ hk)

/-- Settles O20: a coefficient of the result is that of the reduced convolution, centered. -/
theorem mulCompletes : Obligations.MulCompletes := by
  intro s l rd rs1 rs2 ms a b hl hp ha hb
  exact exec_succeedsWith hp (.cons ha (.cons hb .nil)) hl fun k hk =>
    coeff_centerAll _ _ (by rwa [length_ringred])

/-- Settles O21: a coefficient of the result is the centered multiple. -/
theorem smulCompletes : Obligations.SmulCompletes := by
  intro s l rd rs1 ms a hl hp ha
  exact exec_succeedsWith hp (.cons ha .nil) hl fun k hk => coeff_ringScale _ _ (ha.1.symm ▸ hk)

/-- Settles O22: the accumulator of R157 is the model's power. -/
theorem powCompletes : Obligations.PowCompletes := by
  intro s l rd rs1 ms a acc hl hp ha h0 hsucc
  refine exec_succeedsWith hp (.cons ha .nil) hl fun k _ => ?_
  rw [ringPow_unique h0 hsucc]
  rfl

/-- Settles O23: coefficient k of the result is the centered k-th draw. -/
theorem gaussCompletes : Obligations.GaussCompletes := by
  intro s l rd ms hl hp
  refine ⟨fun k => drawGauss (sigmaUnits l) (tailBound l) (rawDraw s k), fun k => ?_,
    exec_succeedsWith hp .nil hl fun k hk => coeff_map_range _ hk⟩
  obtain ⟨hlo, hhi⟩ := drawGauss_bounds (sigmaUnits l) (tailBound l) (rawDraw s k)
  refine ⟨hlo, hhi, fun hstd => ?_⟩
  simp [sigmaUnits, zext64, hstd]

/-- Settles O24: coefficient k of the result is the centered k-th draw. -/
theorem unifCompletes : Obligations.UnifCompletes := by
  intro s l rd ms dr hl hp
  refine ⟨fun k => drawUniform (uniformRange l ms dr).1 (uniformRange l ms dr).2 (rawDraw s k), fun k => ?_,
    exec_succeedsWith hp .nil hl fun k hk => coeff_map_range _ hk⟩
  have hbounds := intoRange_bounds (uniformRange_ordered hp) (rawDraw s k)
  exact ⟨fun hdr => by subst hdr; exact hbounds, fun hdr => by subst hdr; exact hbounds⟩

/-! ## The statements on what a command leaves unchanged -/

/-- Settles O25: `exec_frame` for the commands that take no draws. -/
theorem ringCommandFrame : Obligations.RingCommandFrame := by
  intro i s t l hg hu hl h
  have hdraws := drawsTaken_of_not_sampler hg hu l
  obtain ⟨hsame, hover, hcells, ⟨-, hpoly, hvalid, herr, hdrawn⟩ | ⟨-, hvalid, herr, hdrawn⟩⟩ := exec_frame hl h
  · refine ⟨hsame, hover, hcells, hdrawn, ?_⟩
    cases hset : s.errValid with
    | false => exact .inr ⟨hpoly, rfl, hvalid⟩
    | true => exact .inl ⟨hvalid, herr hset⟩
  · exact ⟨hsame, hover, hcells, by rw [hdrawn, hdraws, Nat.add_zero], .inl ⟨hvalid, herr⟩⟩

/-- Settles O26: `exec_frame` for the commands that take L.N draws. -/
theorem samplerFrame : Obligations.SamplerFrame := by
  intro i s t l hi hl h
  obtain ⟨hsame, hover, hcells, ⟨-, hpoly, hvalid, herr, hdrawn⟩ | ⟨-, hvalid, herr, hdrawn⟩⟩ := exec_frame hl h
  · refine ⟨hsame, hover, hcells, ?_⟩
    cases hset : s.errValid with
    | false => exact .inr ⟨hpoly, rfl, hvalid, hdrawn⟩
    | true => exact .inl ⟨hvalid, herr hset, .inl hdrawn⟩
  · exact ⟨hsame, hover, hcells, .inl ⟨hvalid, herr, .inr (by rw [hdrawn, drawsTaken_of_sampler hi])⟩⟩

/-- Settles O28: the operands are read after the checks, whatever the command. -/
theorem undefOperandFaults : Obligations.UndefOperandFaults := by
  intro i s l r k hl hp hr hk hundef
  rw [exec_of_passes hl hp, withOperands_of_undef ⟨r, hr, k, hk, hundef⟩]

/-- Settles O29: the count of draws from `exec_frame`, and each coefficient from the completions of GAUSS and UNIF. -/
theorem samplersTakeExactlyNDraws : Obligations.SamplersTakeExactlyNDraws := by
  refine ⟨fun i s t l hl h => ?count, fun s t l rd k ms hl h hp hk => ?gauss, fun s t l rd k ms dr hl h hp hk => ?unif⟩
  case count =>
    obtain ⟨-, -, -, ⟨hp, -, -, -, hdrawn⟩ | ⟨hp, -, -, hdrawn⟩⟩ := exec_frame hl h
    · exact ⟨fun _ => hdrawn, fun _ _ => hdrawn, fun hp' => absurd hp' hp⟩
    · exact ⟨fun hp' => absurd hp hp', fun hg hu => by rw [hdrawn, drawsTaken_of_not_sampler hg hu, Nat.add_zero],
        fun _ hi => by rw [hdrawn, drawsTaken_of_sampler hi]⟩
  case gauss =>
    obtain ⟨_, ht, hcells, -⟩ := exec_succeedsWith hp .nil hl fun k hk => coeff_map_range _ hk
    obtain rfl := Host.Outcome.next.inj (h.symm.trans ht)
    exact hcells k hk
  case unif =>
    obtain ⟨_, ht, hcells, -⟩ := exec_succeedsWith hp .nil hl fun k hk => coeff_map_range _ hk
    obtain rfl := Host.Outcome.next.inj (h.symm.trans ht)
    exact hcells k hk

/-- Settles O30: the cell holds a coefficient of the result, which is centered. -/
theorem commandsLeaveCenteredCells : Obligations.CommandsLeaveCenteredCells := by
  intro i s t l hl h off hne
  rcases exec_next_inv hl h with ⟨-, e, -, rfl⟩ | ⟨hp, ops, hops, rfl⟩
  · exact absurd (by rw [failCommand_poly]) hne
  · obtain ⟨k, hk, rfl⟩ := (cellsKept_completed hp hops).exists_of_ne hne
    have hcentered := (reduced_commandResult hp hops (rawDraw s)).centered k hk
    have hparams : (completed i s l ops).params = s.params := (sameOutsideEngine_completed i s l ops).1
    refine ⟨enc64 (coeff (commandResult l (rawDraw s) i ops) k), ?_, ?_⟩
    · rw [← hparams]
      exact polyRead_of_cell (cell_completed hp hops hk)
    · rwa [sext64_enc64_of_centered (modulus_lt l i.modSel) hcentered]

/-- Settles O31: `exec_mapNext` for the state with other configuration registers. -/
theorem completionIgnoresLaterConfigWrites : Obligations.CompletionIgnoresLaterConfigWrites := by
  intro i s c _
  have halike := exec_mapNext (completesAlike_withConfig c s) i
  exact ⟨fun t ht => by rw [ht] at halike; exact halike, fun f hf => by rw [hf] at halike; exact halike⟩

end Sys2Proof.Machine

namespace Sys2Proof.Machine

/-! ## What a step can be -/

/-- The state with its next input taken. -/
def turnTaken (s : State) : State := { s with inputs := s.inputs.tail }

@[simp] theorem turnTaken_params (s : State) : (turnTaken s).params = s.params := rfl
@[simp] theorem turnTaken_errValid (s : State) : (turnTaken s).errValid = s.errValid := rfl
@[simp] theorem turnTaken_err (s : State) : (turnTaken s).err = s.err := rfl
@[simp] theorem turnTaken_cfg (s : State) : (turnTaken s).cfg = s.cfg := rfl
@[simp] theorem turnTaken_inflight (s : State) : (turnTaken s).inflight = s.inflight := rfl
@[simp] theorem turnTaken_heldSeed (s : State) : (turnTaken s).heldSeed = s.heldSeed := rfl
@[simp] theorem turnTaken_poly (s : State) : (turnTaken s).poly = s.poly := rfl
@[simp] theorem turnTaken_entropy (s : State) : (turnTaken s).entropy = s.entropy := rfl
@[simp] theorem turnTaken_inputs (s : State) : (turnTaken s).inputs = s.inputs.tail := rfl

/-- The kinds of a write of the word `v` to a register, each with its effect on the state `s`. -/
inductive RegWriteCase (s : State) (v : Word) : Reg → State → Prop where
  /-- A configuration register stores the word (R41 to R49), or a write of ID or PARAM is ignored (R38, R39): nothing
  changes but what the configuration registers hold. -/
  | config (r : Reg) (c : ConfigRegs) : RegWriteCase s v r (withConfig c s)
  /-- A soft reset (R36). -/
  | softReset (hbit : bits v 1 1 = 1) : RegWriteCase s v .ctrl (resetBlock s)
  /-- A CTRL write that sets IE (R36). -/
  | enable : RegWriteCase s v .ctrl { s with ie := bit v 0 }
  /-- A STATUS write (R37). -/
  | status : RegWriteCase s v .status (writeStatus v s)
  /-- A CMD write that is accepted (R114). -/
  | accept (hidle : s.inflight = none) : RegWriteCase s v .cmd (acceptCommand v s)
  /-- A CMD write that is rejected (R224). -/
  | reject (hbusy : s.inflight ≠ none) : RegWriteCase s v .cmd (recordError .busy s)
  /-- A SEED write that is held (R51). -/
  | hold (hbusy : s.inflight ≠ none) : RegWriteCase s v .seed (holdSeed v s)
  /-- A SEED write that is applied (R51). -/
  | apply (hidle : s.inflight = none) : RegWriteCase s v .seed (applySeed v s)

theorem writeCtrl_of_reset {v : Word} (h : bits v 1 1 = 1) (s : State) : writeCtrl v s = resetBlock s := by
  simp [writeCtrl, bit, h]

theorem writeCtrl_of_enable {v : Word} (h : bits v 1 1 ≠ 1) (s : State) : writeCtrl v s = { s with ie := bit v 0 } := by
  simp [writeCtrl, bit, h]

theorem writeSeed_of_busy {s : State} (v : Word) (h : s.inflight ≠ none) : writeSeed v s = holdSeed v s := by
  obtain ⟨l, hl⟩ := Option.ne_none_iff_exists'.mp h
  simp only [writeSeed, hl]

theorem writeSeed_of_idle {s : State} (v : Word) (h : s.inflight = none) : writeSeed v s = applySeed v s := by
  simp only [writeSeed, h]

theorem regWriteCase_writeReg (s : State) (v : Word) (r : Reg) : RegWriteCase s v r (writeReg s v r) := by
  cases r with
  | ctrl =>
    by_cases hbit : bits v 1 1 = 1
    · rw [writeReg, writeCtrl_of_reset hbit]
      exact .softReset hbit
    · rw [writeReg, writeCtrl_of_enable hbit]
      exact .enable
  | status => exact .status
  | cmd =>
    by_cases hidle : s.inflight = none
    · rw [writeReg, writeCmd_idle v hidle]
      exact .accept hidle
    · rw [writeReg, writeCmd_busy v hidle]
      exact .reject hidle
  | seed =>
    by_cases hidle : s.inflight = none
    · rw [writeReg, writeSeed_of_idle v hidle]
      exact .apply hidle
    · rw [writeReg, writeSeed_of_busy v hidle]
      exact .hold hidle
  | id => exact .config .id s.cfg
  | param => exact .config .param s.cfg
  | _ => exact .config _ _

/-- The kinds of a step that answers a next state, each with its effect. -/
inductive StepCase (s t : State) : Prop where
  /-- The engine's turn with no command in flight (R264). -/
  | idle (hturn : (takeTurn s).1 = .engine) (hidle : s.inflight = none) (ht : t = turnTaken s)
  /-- The engine ends an illegal word (R222). -/
  | illegal (hturn : (takeTurn s).1 = .engine) (ht : t = failCommand .illegalCmd (turnTaken s))
  /-- The engine completes a command (R115). -/
  | command (hturn : (takeTurn s).1 = .engine) (l : InFlight) (i : Instr) (hl : s.inflight = some l)
      (hd : decode l.cmd = .cmd i) (hexec : exec i (turnTaken s) = .next t)
  /-- The host reads a register or a cell (R76, R77). -/
  | read (a : Access) (rest : List Input) (hin : s.inputs = .access a :: rest) (d : Word)
      (ht : t = respond d (turnTaken s))
  /-- The host writes a register (R76). -/
  | writeReg (a : Access) (rest : List Input) (hin : s.inputs = .access a :: rest) (r : Reg) (v : Word) (u : State)
      (hoff : a.offset = regOffset r) (hv : a.kind = .write v) (hw : RegWriteCase (turnTaken s) v r u)
      (ht : t = respondNone u)
  /-- The host writes a cell while BUSY = 0 (R78). -/
  | writeCell (a : Access) (rest : List Input) (hin : s.inputs = .access a :: rest) (v : Word)
      (hidle : s.inflight = none) (hcell : IsCellOffset s.params a.offset) (hv : a.kind = .write v)
      (ht : t = respondNone { turnTaken s with poly := polyWrite s.poly a.offset v })
  /-- Hardware reset (R260). -/
  | reset (hturn : (takeTurn s).1 = .rst) (ht : t = resetBlock (turnTaken s))

theorem legalForm_aligned {a : Access} (h : legalForm a = true) : a.offset % 8 = 0 := by
  simp only [legalForm, Bool.and_eq_true, decide_eq_true_eq] at h
  exact h.1.2

/-- An offset that names a cell lies in the window and names the cell at itself (R70). -/
theorem targetOf_eq_cell {p : Params} {off off' : Nat} (h : targetOf p off = .cell off') :
    off' = off ∧ 0x1000 ≤ off ∧ off < windowSize p := by
  unfold targetOf at h
  split at h
  · split at h <;> cases h
  · split at h <;> cases h
    exact ⟨rfl, by omega, by assumption⟩

theorem stepCase_of_step {s t : State} (h : step s = .next t) : StepCase s t := by
  have hsnd : (takeTurn s).2 = turnTaken s := takeTurn_snd s
  rcases step_next_cases h with ⟨hturn, he⟩ | ⟨a, hturn, ha⟩ | ⟨hturn, ht⟩
  · rw [hsnd] at he
    rcases engineTurn_next_cases he with ⟨hidle, ht⟩ | ⟨l, hl, ⟨i, hd, hexec⟩ | ⟨_, -, ht⟩⟩
    · exact .idle hturn hidle ht
    · exact .command hturn l i hl hd hexec
    · exact .illegal hturn ht
  · rw [hsnd] at ha
    obtain ⟨rest, hin⟩ := inputs_of_takeTurn_host hturn
    obtain ⟨hform, ⟨r, hr, ⟨-, ht⟩ | ⟨v, hv, ht⟩⟩ | ⟨hidle, off, hoff, ⟨v, -, -, ht⟩ | ⟨v, hv, ht⟩⟩⟩ :=
      hostAccess_next_cases ha
    · exact .read a rest hin _ ht
    · exact .writeReg a rest hin r v _ (eq_regOffset_of_targetOf hr) hv (regWriteCase_writeReg _ v r) ht
    · exact .read a rest hin _ ht
    · obtain ⟨rfl, hlo, hhi⟩ := targetOf_eq_cell hoff
      exact .writeCell a rest hin v hidle ⟨hlo, hhi, legalForm_aligned hform⟩ hv ht
  · rw [hsnd] at ht
    exact .reset hturn ht


section
variable {s t : State} {v : Word} {r : Reg} (h : RegWriteCase s v r t)
include h

theorem RegWriteCase.inputs : t.inputs = s.inputs := by
  cases h with
  | status => simp [writeStatus]
  | _ => simp [withConfig]

/-- Only the writes of STATUS and CTRL touch an error once it is recorded (R225, R226). -/
theorem RegWriteCase.error (hset : s.errValid = true) :
    (t.errValid = true ∧ t.err = s.err) ∨ (t.errValid = false ∧ t.err = .noError ∧
      ((r = .status ∧ bits v 2 2 = 1) ∨ (r = .ctrl ∧ bits v 1 1 = 1))) := by
  cases h with
  | softReset hbit => exact .inr ⟨rfl, rfl, .inr ⟨rfl, hbit⟩⟩
  | status =>
    rw [writeStatus_eq]
    by_cases hbit : bits v 2 2 = 1
    · exact .inr ⟨if_pos hbit, if_pos hbit, .inl ⟨rfl, hbit⟩⟩
    · exact .inl ⟨by rw [if_neg hbit, hset], if_neg hbit⟩
  | _ => exact .inl (by simp [hset, withConfig])

/-- Only an accepted CMD write puts a command in flight, and only a soft reset takes it out (R114, R36). -/
theorem RegWriteCase.inflight (hne : t.inflight ≠ s.inflight) :
    (r = .cmd ∧ s.inflight = none ∧ t.inflight = some ⟨v, s.cfg⟩) ∨
      (r = .ctrl ∧ bits v 1 1 = 1 ∧ t.inflight = none) := by
  cases h with
  | softReset hbit => exact .inr ⟨rfl, hbit, rfl⟩
  | accept hidle => exact .inl ⟨rfl, hidle, rfl⟩
  | status => exact absurd (by simp [writeStatus]) hne
  | _ => exact absurd (by simp [withConfig]) hne

/-- No write of a register but a soft reset changes a cell. -/
theorem RegWriteCase.poly : t.poly = s.poly ∨ (t.poly = [] ∧ r = .ctrl ∧ bits v 1 1 = 1) := by
  cases h with
  | softReset hbit => exact .inr ⟨rfl, rfl, hbit⟩
  | status => exact .inl (by simp [writeStatus])
  | _ => exact .inl (by simp [withConfig])

end

/-! ## The statements on what a step changes -/

theorem exec_keeps_error {i : Instr} {s t : State} (h : exec i s = .next t) (hset : s.errValid = true) :
    t.errValid = true ∧ t.err = s.err := by
  obtain ⟨l, -, ⟨e, -, rfl⟩ | ⟨-, -, -, -, result, draws, -, rfl⟩⟩ := exec_next_cases h <;> simp [hset]

/-- Settles O34: an error is cleared by a STATUS write and by a reset, and kept in every other case of a step. -/
theorem errorIsKeptUntilCleared : Obligations.ErrorIsKeptUntilCleared := by
  intro s t hset h
  cases stepCase_of_step h with
  | idle _ _ ht => exact .inl (by simp [ht, hset])
  | illegal _ ht => exact .inl (by simp [ht, hset])
  | command _ l i _ _ hexec => exact .inl (exec_keeps_error (s := turnTaken s) hexec hset)
  | read _ _ _ _ ht => exact .inl (by simp [ht, hset])
  | writeReg a rest hin r v u hoff hv hw ht =>
    subst ht
    refine (hw.error hset).imp_right fun ⟨hvalid, herr, hclear⟩ => ⟨hvalid, herr, .inr ⟨a, v, rest, hin, hv, ?_⟩⟩
    rw [hoff]
    rcases hclear with ⟨rfl, hbit⟩ | ⟨rfl, hbit⟩
    · exact .inl ⟨rfl, hbit⟩
    · exact .inr ⟨rfl, hbit⟩
  | writeCell _ _ _ _ _ _ _ ht => exact .inl (by simp [ht, hset])
  | reset hturn ht => exact .inr (by simp [ht, hturn])

/-- Settles O57: a command comes into flight by an accepted CMD write and leaves it by its completion or a reset; every
other case of a step keeps the in-flight record. -/
theorem onlyTheseStepsChangeBusy : Obligations.OnlyTheseStepsChangeBusy := by
  intro s t h hne
  cases stepCase_of_step h with
  | idle _ _ ht => exact absurd (by simp [ht]) hne
  | illegal hturn ht => exact .inr ⟨by simp [ht], .inl hturn⟩
  | command hturn l i hl _ hexec =>
    obtain ⟨-, ⟨-, -, hover, -⟩, -⟩ := exec_frame (s := turnTaken s) hl hexec
    exact .inr ⟨hover, .inl hturn⟩
  | read _ _ _ _ ht => exact absurd (by simp [ht]) hne
  | writeReg a rest hin r v u hoff hv hw ht =>
    subst ht
    rcases hw.inflight hne with ⟨rfl, hidle, hl⟩ | ⟨rfl, hbit, hnone⟩
    · exact .inl ⟨hidle, a, v, rest, hin, hv, hoff, hl⟩
    · exact .inr ⟨hnone, .inr (.inr ⟨a, v, rest, hin, hv, hoff, hbit⟩)⟩
  | writeCell _ _ _ _ _ _ _ ht => exact absurd (by simp [ht]) hne
  | reset hturn ht => exact .inr ⟨by simp [ht], .inr (.inl hturn)⟩

/-- Settles O58: a host write changes its own cell, a completion the cells of its result, and a reset makes every cell
`undef`; every other case of a step keeps the polynomial file. -/
theorem onlyTheseStepsChangeCells : Obligations.OnlyTheseStepsChangeCells := by
  intro s t off h hne
  cases stepCase_of_step h with
  | idle _ _ ht => exact absurd (by simp [ht]) hne
  | illegal hturn ht => exact absurd (by simp [ht]) hne
  | command hturn l i hl hd hexec =>
    obtain ⟨-, -, hcells, hcase⟩ := exec_frame (s := turnTaken s) hl hexec
    obtain ⟨k, hk, hoff⟩ := hcells.exists_of_ne hne
    rcases hcase with ⟨-, hpoly, -⟩ | ⟨hp, -⟩
    · exact absurd (by rw [hpoly]; rfl) hne
    · exact .inr (.inl ⟨hturn, l, i, k, hl, hd, hp, hk, hoff⟩)
  | read _ _ _ _ ht => exact absurd (by simp [ht]) hne
  | writeReg a rest hin r v u hoff hv hw ht =>
    subst ht
    rcases hw.poly with hpoly | ⟨hpoly, rfl, hbit⟩
    · exact absurd (by simp [hpoly]) hne
    · exact .inr (.inr ⟨hpoly, .inr ⟨a, v, rest, hin, hv, hoff, hbit⟩⟩)
  | writeCell a rest hin v hidle _ hv ht =>
    subst ht
    by_cases hoff : off = a.offset
    · subst hoff
      exact .inl ⟨hidle, a, v, rest, hin, hv, rfl, polyRead_polyWrite_same _ _ _⟩
    · exact absurd (polyRead_polyWrite_other _ v hoff) hne
  | reset hturn ht => exact .inr (.inr ⟨by simp [ht], .inl hturn⟩)

/-! ## Every step takes an input, and a run ends (R274) -/

theorem step_inputs {s t : State} (h : step s = .next t) : t.inputs = s.inputs.tail := by
  cases stepCase_of_step h with
  | command _ l i hl _ hexec =>
    obtain ⟨⟨-, -, -, -, hinputs, -⟩, -⟩ := exec_frame (s := turnTaken s) hl hexec
    exact hinputs
  | writeReg _ _ _ _ _ _ _ _ hw ht => rw [ht, respondNone_inputs, hw.inputs, turnTaken_inputs]
  | _ => simp [*]

/-- With no input waiting the engine moves, and no command is in flight after its turn (R115, R264). -/
theorem inflight_of_no_input {s t : State} (hnil : s.inputs = []) (h : step s = .next t) : t.inflight = none := by
  cases stepCase_of_step h with
  | idle _ hidle ht => simp [ht, hidle]
  | illegal _ ht => simp [ht]
  | command _ l i hl _ hexec =>
    obtain ⟨-, ⟨-, -, hover, -⟩, -⟩ := exec_frame (s := turnTaken s) hl hexec
    exact hover
  | reset _ ht => simp [ht]
  | read _ _ hin => exact absurd (hnil.symm.trans hin) nofun
  | writeReg _ _ hin => exact absurd (hnil.symm.trans hin) nofun
  | writeCell _ _ hin => exact absurd (hnil.symm.trans hin) nofun

theorem runsTo_zero_iff {s t : State} : RunsTo 0 s t ↔ s = t :=
  ⟨Host.Outcome.next.inj, congrArg Host.Outcome.next⟩

theorem run_succ_eq_next_iff {M : Host.Core} {k : Nat} {s t : M.State} :
    M.run (k + 1) s = .next t ↔ ∃ u, M.step s = .next u ∧ M.run k u = .next t := by
  rw [Host.Core.run]
  constructor
  · intro h
    split at h
    · exact ⟨_, ‹_›, h⟩
    · cases h
    · cases h
  · rintro ⟨u, hu, h⟩
    rwa [hu]

theorem runsTo_succ_iff {k : Nat} {s t : State} : RunsTo (k + 1) s t ↔ ∃ u, step s = .next u ∧ RunsTo k u t :=
  run_succ_eq_next_iff (M := Sys2Proof.core)

/-- Settles O59, by induction on the inputs that wait: each step takes one, and the last is the engine's turn. -/
theorem runsReachTheirEnd : Obligations.RunsReachTheirEnd := by
  intro s t hrun
  induction hn : s.inputs.length generalizing s with
  | zero =>
    have hnil := List.length_eq_zero_iff.mp hn
    obtain ⟨u, hstep, hu⟩ := runsTo_succ_iff.mp (hn ▸ hrun)
    obtain rfl := runsTo_zero_iff.mp hu
    exact ⟨by rw [step_inputs hstep, hnil, List.tail_nil], inflight_of_no_input hnil hstep⟩
  | succ n ih =>
    obtain ⟨u, hstep, hu⟩ := runsTo_succ_iff.mp (hn ▸ hrun)
    have hlen : u.inputs.length = n := by rw [step_inputs hstep, List.length_tail, hn, Nat.add_sub_cancel]
    exact ih u (hlen.symm ▸ hu) hlen

/-! ## Faults and refusals (R238) -/

theorem accessCell_fault {s : State} {off : Nat} {k : AccessKind} {f : Fault} (h : accessCell s off k = .fault f) :
    (f = .polyAccessWhileBusy ∧ s.inflight ≠ none) ∨
      (f = .readUndefHost ∧ s.inflight = none ∧ k = .read ∧ polyRead s.poly off = none) := by
  by_cases hidle : s.inflight = none
  · cases k with
    | read =>
      cases hw : polyRead s.poly off with
      | none =>
        rw [accessCell_read_undef hidle hw] at h
        cases h
        exact .inr ⟨rfl, hidle, rfl, rfl⟩
      | some w => exact absurd (h.symm.trans (accessCell_read_word hidle hw)) nofun
    | write v => exact absurd (h.symm.trans (accessCell_write off v hidle)) nofun
  · rw [accessCell_busy off k hidle] at h
    cases h
    exact .inl ⟨rfl, hidle⟩

/-- The fault of a host access has one of the three causes of a host's fault (R238). -/
theorem hostAccess_fault {a : Access} {s : State} {f : Fault} (h : hostAccess a s = .fault f) :
    (f = .busError ∧ (legalForm a = false ∨ targetOf s.params a.offset = .nothing)) ∨
      (f = .polyAccessWhileBusy ∧ s.inflight ≠ none ∧ targetOf s.params a.offset = .cell a.offset) ∨
        (f = .readUndefHost ∧ s.inflight = none ∧ a.kind = .read ∧ polyRead s.poly a.offset = none) := by
  unfold hostAccess at h
  split at h
  · split at h
    case h_1 r _ => exact absurd h (accessReg_ne_fault s r _ f)
    case h_2 off hoff =>
      obtain ⟨rfl, -⟩ := targetOf_eq_cell hoff
      rcases accessCell_fault h with ⟨hf, hbusy⟩ | hundef
      · exact .inr (.inl ⟨hf, hbusy, hoff⟩)
      · exact .inr (.inr hundef)
    case h_3 hnothing =>
      cases h
      exact .inl ⟨rfl, .inr hnothing⟩
  · rename_i hform
    cases h
    exact .inl ⟨rfl, .inl (by simpa using hform)⟩

theorem hostAccess_ne_refused (a : Access) (s : State) (r : Refusal) : hostAccess a s ≠ .refused r := by
  unfold hostAccess accessReg accessCell
  split
  · split
    · split <;> nofun
    · split
      · nofun
      · split
        · split <;> nofun
        · nofun
    · nofun
  · nofun

/-- The engine faults only where a command that passes its checks reads an `undef` cell (R115, R238). -/
theorem engineTurn_fault {s : State} {f : Fault} (h : engineTurn exec s = .fault f) :
    f = .readUndefEngine ∧ ∃ l i, s.inflight = some l ∧ decode l.cmd = .cmd i ∧ Passes s.params l i ∧
      UndefAmong s (ringDegree l) i.sources := by
  unfold engineTurn at h
  split at h
  · cases h
  · rename_i l hl
    split at h
    · rename_i i hd
      rcases exec_cases hl i with ⟨-, e, -, h'⟩ | ⟨hp, hundef, h'⟩ | ⟨-, ops, -, h'⟩
      · exact absurd (h.symm.trans h') nofun
      · rw [h'] at h
        cases h
        exact ⟨rfl, l, i, hl, hd, hp, hundef⟩
      · exact absurd (h.symm.trans h') nofun
    · cases h

theorem engineTurn_ne_refused (s : State) (r : Refusal) : engineTurn exec s ≠ .refused r := by
  unfold engineTurn
  split
  · nofun
  · rename_i l hl
    split
    · rename_i i _
      rcases exec_cases hl i with ⟨-, e, -, h⟩ | ⟨-, -, h⟩ | ⟨-, ops, -, h⟩ <;> rw [h] <;> nofun
    · nofun

/-- A step that does not answer a next state is the engine's turn or a host access. -/
theorem step_cases (s : State) :
    ((takeTurn s).1 = .engine ∧ step s = engineTurn exec (turnTaken s)) ∨
      (∃ a rest, s.inputs = .access a :: rest ∧ step s = hostAccess a (turnTaken s)) ∨
        step s = .next (resetBlock (turnTaken s)) := by
  have hsnd : (takeTurn s).2 = turnTaken s := takeTurn_snd s
  unfold step
  split
  · rename_i s' hturn
    rw [hturn] at hsnd
    exact .inl ⟨by rw [hturn], by rw [← hsnd]⟩
  · rename_i a s' hturn
    rw [hturn] at hsnd
    obtain ⟨rest, hin⟩ := inputs_of_takeTurn_host (congrArg Prod.fst hturn)
    exact .inr (.inl ⟨a, rest, hin, by rw [← hsnd]⟩)
  · rename_i s' hturn
    rw [hturn] at hsnd
    exact .inr (.inr (by rw [← hsnd]))

/-- Settles O55: neither the engine's turn nor a host access is ever refused. -/
theorem stepNeverRefuses : Obligations.StepNeverRefuses := by
  intro s r
  rcases step_cases s with ⟨-, h⟩ | ⟨a, rest, -, h⟩ | h <;> rw [h]
  · exact engineTurn_ne_refused _ r
  · exact hostAccess_ne_refused a _ r
  · nofun

/-- Settles O56: a fault is the engine's or the host's, each with its causes. -/
theorem faultsHaveTheirCauses : Obligations.FaultsHaveTheirCauses := by
  intro s f hf
  rcases step_cases s with ⟨hturn, h⟩ | ⟨a, rest, hin, h⟩ | h <;> rw [h] at hf
  · obtain ⟨rfl, l, i, hl, hd, hp, r, hr, k, hk, hundef⟩ := engineTurn_fault hf
    exact .inr ⟨rfl, hturn, l, i, r, k, hl, hd, hp, hr, hk, hundef⟩
  · exact .inl ⟨a, rest, hin, hostAccess_fault (s := turnTaken s) hf⟩
  · cases hf

end Sys2Proof.Machine

namespace Sys2Proof.Machine

/-! ## The invariant, part by part

The invariant reads six fields of the state; each part is kept by the operations that touch its fields. -/

/-- The polynomial file is in canonical form and holds only cells that exist (R31, R70). -/
def PolyOk (p : Params) (m : PolyFile) : Prop := PolyFile.Wf m ∧ ∀ e ∈ m, IsCellOffset p e.1

/-- ERR is NONE exactly while ERR_VALID = 0 (R37). -/
def ErrorOk (s : State) : Prop := s.errValid = false ↔ s.err = .noError

/-- A SEED write is held only while a command is in flight, and without a pseudo-random generator none is held and none
was applied (R51). -/
def SeedOk (s : State) : Prop :=
  (s.inflight = none → s.heldSeed = none) ∧
    (s.params.entropySource ≠ .pseudoRandom → s.heldSeed = none ∧ s.entropy.seed = none)

theorem inv_iff {s : State} : s.Inv ↔ s.params.Wf ∧ PolyOk s.params s.poly ∧ ErrorOk s ∧ SeedOk s := by
  simp only [State.Inv, PolyOk, ErrorOk, SeedOk, and_assoc]

/-! ### The polynomial file -/

theorem polyOk_nil (p : Params) : PolyOk p [] := ⟨List.Pairwise.nil, nofun⟩

theorem PolyOk.polyWrite {p : Params} {m : PolyFile} (h : PolyOk p m) {off : Nat} (hoff : IsCellOffset p off)
    (v : Word) : PolyOk p (polyWrite m off v) := by
  refine ⟨polyWrite_wf off v h.1, fun e he => ?_⟩
  rcases mem_polyWrite he with rfl | he
  · exact hoff
  · exact h.2 e he

theorem PolyOk.writeCells {p : Params} {m : PolyFile} (h : PolyOk p m) {r : Nat} (hr : r < p.nreg)
    {result : List Int} (hlen : result.length ≤ p.nmax) : PolyOk p (writeCells p r 0 result m) := by
  refine ⟨writeCells_wf p r result 0 h.1, fun e he => ?_⟩
  rcases mem_writeCells result 0 he with ⟨k, hk, he⟩ | he
  · rw [he, Nat.zero_add]
    exact isCellOffset_cellOffset hr (hk.trans_le hlen)
  · exact h.2 e he

/-! ### The error record -/

theorem errorOk_recordError {s : State} (h : ErrorOk s) {e : ErrCode} (he : e ≠ .noError) :
    ErrorOk (recordError e s) := by
  unfold ErrorOk at h ⊢
  cases hset : s.errValid with
  | false => simp [hset, he]
  | true => simpa [hset] using h

theorem errorOk_writeStatus {s : State} (h : ErrorOk s) (v : Word) : ErrorOk (writeStatus v s) := by
  unfold ErrorOk at h ⊢
  rw [writeStatus_eq]
  by_cases hbit : bits v 2 2 = 1 <;> simp [hbit, h]

/-! ### The seed -/

theorem seedOk_holdSeed {s : State} (h : SeedOk s) (hbusy : s.inflight ≠ none) (v : Word) :
    SeedOk (holdSeed v s) := by
  refine ⟨fun hidle => absurd (by simpa using hidle) hbusy, fun hsource => ?_⟩
  rw [holdSeed_params] at hsource
  simpa [hsource] using h.2 hsource

theorem seedOk_applySeed {s : State} (h : SeedOk s) (v : Word) : SeedOk (applySeed v s) := by
  refine ⟨fun hidle => ?_, fun hsource => ?_⟩
  · rw [applySeed_heldSeed]
    exact h.1 (by simpa using hidle)
  · rw [applySeed_params] at hsource
    simpa [hsource] using h.2 hsource

/-- A held SEED write is applied at the end of every completion (R51, R115). -/
theorem seedOk_of_commandOver {s t : State} (h : SeedOk s) (hparams : t.params = s.params) (hover : CommandOver s t) :
    SeedOk t := by
  obtain ⟨-, -, -, hheld, hseed⟩ := hover
  refine ⟨fun _ => hheld, fun hsource => ⟨hheld, ?_⟩⟩
  rw [hparams] at hsource
  rw [hseed, if_neg hsource]
  exact (h.2 hsource).2

/-! ## Every step keeps the invariant -/

theorem inv_resetBlock {s : State} (h : s.params.Wf) : (resetBlock s).Inv :=
  inv_iff.mpr ⟨h, polyOk_nil _, by simp [ErrorOk], by simp [SeedOk]⟩

theorem inv_failCommand {s : State} (h : s.Inv) {e : ErrCode} (he : e ≠ .noError) : (failCommand e s).Inv := by
  obtain ⟨hparams, hpoly, herr, hseed⟩ := inv_iff.mp h
  obtain ⟨_, ht, hpoly', -, -, -, ⟨hparams', -⟩, hover⟩ := failsWith_failCommand e s
  obtain rfl := Host.Outcome.next.inj ht
  refine inv_iff.mpr ⟨by rwa [hparams'], by rwa [hparams', hpoly'], ?_, seedOk_of_commandOver hseed hparams' hover⟩
  have herr' := errorOk_recordError herr he
  unfold ErrorOk at herr' ⊢
  simpa using herr'

/-- A command that completes writes only cells of its destination, a register that exists. -/
theorem inv_exec {i : Instr} {s t : State} (h : s.Inv) (hexec : exec i s = .next t) : t.Inv := by
  obtain ⟨l, hl, ⟨e, he, rfl⟩ | ⟨hr, -, hle, -, result, draws, hlen, rfl⟩⟩ := exec_next_cases hexec
  · exact inv_failCommand h he
  · obtain ⟨hparams, hpoly, herr, hseed⟩ := inv_iff.mp h
    obtain ⟨-, hover, -⟩ := exec_frame hl hexec
    refine inv_iff.mpr ⟨by simpa using hparams, ?_, by simpa [ErrorOk] using herr,
      seedOk_of_commandOver hseed (by simp) hover⟩
    simpa using hpoly.writeCells hr (hlen.trans_le hle)

theorem RegWriteCase.inv {s t : State} {v : Word} {r : Reg} (hw : RegWriteCase s v r t) (h : s.Inv) : t.Inv := by
  obtain ⟨hparams, hpoly, herr, hseed⟩ := inv_iff.mp h
  rw [inv_iff]
  cases hw with
  | config => exact ⟨hparams, hpoly, herr, hseed⟩
  | softReset => exact inv_iff.mp (inv_resetBlock hparams)
  | enable => exact ⟨hparams, hpoly, herr, hseed⟩
  | status =>
    refine ⟨by simpa [writeStatus], by simpa [writeStatus], errorOk_writeStatus herr v, ?_⟩
    simpa [SeedOk, writeStatus] using hseed
  | accept hidle => exact ⟨hparams, hpoly, herr, by simp, hseed.2⟩
  | reject => exact ⟨by simpa, by simpa, errorOk_recordError herr nofun, by simpa [SeedOk] using hseed⟩
  | hold hbusy => exact ⟨by simpa, by simpa, by simpa [ErrorOk] using herr, seedOk_holdSeed hseed hbusy v⟩
  | apply => exact ⟨by simpa, by simpa, by simpa [ErrorOk] using herr, seedOk_applySeed hseed v⟩

/-- Settles O54: each kind of step keeps each part of the invariant. -/
theorem stepKeepsTheInvariant : Obligations.StepKeepsTheInvariant := by
  intro s t h hstep
  have hturn : (turnTaken s).Inv := h
  cases stepCase_of_step hstep with
  | idle _ _ ht => exact ht ▸ hturn
  | illegal _ ht => exact ht ▸ inv_failCommand hturn nofun
  | command _ _ _ _ _ hexec => exact inv_exec hturn hexec
  | read _ _ _ _ ht => exact ht ▸ hturn
  | writeReg _ _ _ _ _ _ _ _ hw ht => exact ht ▸ hw.inv hturn
  | writeCell _ _ _ v _ hcell _ ht =>
    obtain ⟨hparams, hpoly, hrest⟩ := inv_iff.mp hturn
    exact ht ▸ inv_iff.mpr ⟨hparams, hpoly.polyWrite hcell v, hrest⟩
  | reset _ ht => exact ht ▸ inv_resetBlock hturn.1

/-- Settles O53: the reset state is that of `inv_resetBlock`, with no inputs and no draws. -/
theorem resetMeetsTheInvariant : Obligations.ResetMeetsTheInvariant := by
  have hreset (p : Params) (hp : p.Wf) : (State.resetOf p).Inv := inv_resetBlock (s := State.resetOf p) hp
  exact ⟨hreset Params.reference (by decide), hreset⟩

/-! ## The engine's turn (R81, R264) -/

theorem step_of_inputs_nil {s : State} (h : s.inputs = []) : step s = engineTurn exec s := by
  simp only [step, takeTurn, h]

theorem step_of_inputs_engine {s : State} {rest : List Input} (h : s.inputs = .engine :: rest) :
    step s = engineTurn exec { s with inputs := rest } := by
  simp only [step, takeTurn, h]

theorem engineTurn_of_idle {run : Instr → State → Host.Outcome State Fault Refusal} {s : State}
    (h : s.inflight = none) : engineTurn run s = .next s := by
  simp only [engineTurn, h, idle]

/-! ## A configuration write, and byte lanes (R80, R73) -/

/-- A write of a configuration register is an update of the configuration that the other registers do not show. -/
theorem writeReg_config_frame (s : State) (v : Word) {r : Reg}
    (h : r ∈ [Reg.n, .q, .t, .scalar, .exp, .std, .gbound, .umin, .umax]) :
    (∃ c, writeReg s v r = withConfig c s) ∧ ∀ r', r' ≠ r → readReg (writeReg s v r) r' = readReg s r' := by
  simp only [List.mem_cons, List.not_mem_nil, or_false] at h
  rcases h with rfl | rfl | rfl | rfl | rfl | rfl | rfl | rfl | rfl
  all_goals
    refine ⟨⟨_, rfl⟩, fun r' hne => ?_⟩
    cases r' <;> simp [readReg, writeReg, ctrlWord, statusWord, busy] at hne ⊢

theorem readReg_respondNone (s : State) (r : Reg) : readReg (respondNone s) r = readReg s r := by
  cases r <;> rfl

theorem toNat_byteLane (v : Word) (k : Nat) : (byteLane v k).toNat = v.toNat / 256 ^ k % 256 := by
  have hpow : 2 ^ (8 * k) = 256 ^ k := pow_mul 2 8 k
  simp [byteLane, bits, hpow, show 8 * k + 7 + 1 - 8 * k = 8 by omega]

/-- The lowest `n` byte lanes are the lowest `n` digits in base 256. -/
theorem sum_byteLanes (v : Word) (n : Nat) :
    ((List.range n).map fun k => (byteLane v k).toNat * 256 ^ k).sum = v.toNat % 256 ^ n := by
  induction n with
  | zero => simp [Nat.mod_one]
  | succ n ih =>
    rw [List.range_succ, List.map_append, List.sum_append, ih, Nat.mod_pow_succ, List.map_singleton, List.sum_singleton,
      toNat_byteLane, Nat.mul_comm]

/-! ## The statements on a step's turn, on one register and on byte lanes -/

/-- Settles O51: the turn is the engine's, with no input waiting and with an engine turn next. -/
theorem stepRunsDecodedCommand : Obligations.StepRunsDecodedCommand := by
  intro s l i hl hd
  refine ⟨fun hnil => ?_, fun rest hin => ?_⟩
  · rw [step_of_inputs_nil hnil, engineTurn_of_decode_cmd hl hd]
  · rw [step_of_inputs_engine hin]
    exact engineTurn_of_decode_cmd hl hd

/-- Settles O52: the next input is an access, or the engine's turn of an idle block. -/
theorem stepTakesTheNextInput : Obligations.StepTakesTheNextInput := by
  intro s
  refine ⟨fun a rest => step_of_inputs_access, fun hidle hnil => ?_, fun rest hidle hin => ?_⟩
  · rw [step_of_inputs_nil hnil, engineTurn_of_idle hidle]
  · rw [step_of_inputs_engine hin]
    exact engineTurn_of_idle hidle

/-- Settles O32: the fields of STATUS as `bits_statusWord` gives them. -/
theorem statusShowsItsFlags : Obligations.StatusShowsItsFlags := by
  intro s
  obtain ⟨hbusy, hdone, hvalid, -, herr, -⟩ := bits_statusWord s
  refine ⟨?_, ?_, ?_, herr, rfl, rfl, rfl, rfl, rfl, rfl, rfl⟩
  · simp [readReg, hbusy, busy, Option.isSome_iff_ne_none]
  · simp [readReg, hdone]
  · simp [readReg, hvalid]

/-- Settles O41: the two effects of a CTRL write. -/
theorem ctrlWrite : Obligations.CtrlWrite := by
  intro s v
  have hwrite : hostAccess (writeAt 0x010 v) s = .next (respondNone (writeCtrl v s)) := hostAccess_writeReg s .ctrl v
  rw [hwrite]
  refine ⟨fun hclear => ?_, fun hset => ⟨_, rfl, ?_⟩⟩
  · rw [writeCtrl_of_enable (by omega)]
    rfl
  · rw [writeCtrl_of_reset hset]
    exact isReset_resetBlock s

/-- Settles O38: the access is a write of the register, and `writeReg_config_frame` its frame. -/
theorem configWriteStores : Obligations.ConfigWriteStores := by
  intro s v r hr
  obtain ⟨⟨c, hc⟩, hframe⟩ := writeReg_config_frame s v hr
  refine ⟨_, hostAccess_writeReg s r v, ?_, fun r' hne => ?_, ?_⟩
  · rw [readReg_respondNone, readReg_writeReg_config s v hr]
  · rw [readReg_respondNone, hframe r' hne]
  · rw [hc]
    exact ⟨rfl, rfl, rfl, rfl, rfl⟩

/-- Settles O49: eight lanes are all the word's digits. -/
theorem byteLanesAreLittleEndian : Obligations.ByteLanesAreLittleEndian := by
  intro v
  have hv : v.toNat < 256 ^ 8 := v.isLt
  rw [sum_byteLanes, Nat.mod_eq_of_lt hv]

end Sys2Proof.Machine
